-- ==== Sys2Proof/Word.lean ====
section
/-! DEFINITION. The word types of the machine (spec/00_scope.md R7, R10). -/

namespace Sys2Proof

/-- A register value, memory word or instruction word: `XLEN = ILEN = 16` bits (R7, R10). -/
abbrev Word := BitVec 16

/-- A word address, and the program counter: `PCW = 13` bits, 0 to 8191 (R7, R25, R50). -/
abbrev Addr := BitVec 13

/-- A register number, 0 to 7 (R21, R97). -/
abbrev Reg := Fin 8

end Sys2Proof
end

