-- ==== Sys2Proof/Config.lean ====
section
/-! DEFINITION. What is fixed for a run (spec/00_scope.md R7, R8): the instruction set's constants, the run's
parameters and the geometry of a cache level. No value of this hardware is a free value. -/

namespace Sys2Proof

/-- `MEMWORDS`, the number of memory words (R7, R31). -/
def memWords : Nat := 8192

/-- `LINKREG`, the register `jal` writes (R7, R23). -/
def linkReg : Reg := 7

/-- `REPORTWORDS`, the memory words of the final report (R7, R17). -/
def reportWords : Nat := 128

/-- What a word of memory that is not listed reads as.
DESIGN CHOICE of the spec (D3, `MEM_INIT = zero`), unsafe: notes/assumptions/2.md. -/
def unlistedWord : Word := 0

/-- `UNDEF_FUNC` (R8, R103): what a function code without a named operation does. -/
inductive UndefFunc where
  | nop
  | refuse
deriving DecidableEq, Repr

/-- `SLTI_IMM` (R8, R95): how `slti` widens its immediate. -/
inductive SltiImm where
  | sext
  | zext
deriving DecidableEq, Repr

/-- The parameters of a run that an instruction's meaning reads (R8); no step changes them. -/
structure RunParams where
  undefFunc : UndefFunc
  sltiImm   : SltiImm
deriving DecidableEq, Repr

/-- The spec's own choice for each parameter (D6, D7).
DESIGN CHOICE of the spec, unsafe: notes/assumptions/3.md and notes/assumptions/5.md. -/
def RunParams.specChoice : RunParams := { undefFunc := .nop, sltiImm := .sext }

/-- `MEM_INIT` (R8, D3): the words the image does not cover at reset. `arbitrary draw` gives word `a` the draw
`draw[a]` (and zero past the list's end), so a claim for every `draw` is a claim for any contents. -/
inductive MemInit where
  | zero
  | arbitrary (draw : List Word)
deriving DecidableEq, Repr

/-- The triple that configures a cache level, in words (R14, R34, D9). -/
structure LevelConfig where
  size      : Nat
  assoc     : Nat
  blockSize : Nat
deriving DecidableEq, Repr

end Sys2Proof
end

