-- ==== Sys2Proof/Syntax.lean ====
section
/-! DEFINITION. The instructions: one constructor for each row of spec/opcode_table.json (spec/30_encoding.md R90 to
R105). An immediate that R94 sign-extends is held as the integer `simm7(w)`; `slti`'s is held as its bit pattern,
because how it widens is a parameter of the run (R95). Bits an instruction ignores are kept, so that a word and its
instruction determine each other. -/

namespace Sys2Proof

inductive Instr where
  /-- `add $dst, $srcA, $srcB` (R120). -/
  | add (srcA srcB dst : Reg)
  /-- `sub $dst, $srcA, $srcB` (R121). -/
  | sub (srcA srcB dst : Reg)
  /-- `or $dst, $srcA, $srcB` (R122). -/
  | or (srcA srcB dst : Reg)
  /-- `and $dst, $srcA, $srcB` (R123). -/
  | and (srcA srcB dst : Reg)
  /-- `slt $dst, $srcA, $srcB` (R124). -/
  | slt (srcA srcB dst : Reg)
  /-- `jr $srcA` (R140); bits [9:4] of the word are ignored (R101). -/
  | jr (srcA : Reg) (ignored : BitVec 6)
  /-- Opcode 0, function code 5: no named operation (R125). -/
  | op0Func5 (srcA srcB dst : Reg)
  /-- Opcode 0, function code 6: no named operation (R125). -/
  | op0Func6 (srcA srcB dst : Reg)
  /-- Opcode 0, function code 7: no named operation (R125). -/
  | op0Func7 (srcA srcB dst : Reg)
  /-- Opcode 0, function code 9: no named operation (R125). -/
  | op0Func9 (srcA srcB dst : Reg)
  /-- Opcode 0, function code 10: no named operation (R125). -/
  | op0Func10 (srcA srcB dst : Reg)
  /-- Opcode 0, function code 11: no named operation (R125). -/
  | op0Func11 (srcA srcB dst : Reg)
  /-- Opcode 0, function code 12: no named operation (R125). -/
  | op0Func12 (srcA srcB dst : Reg)
  /-- Opcode 0, function code 13: no named operation (R125). -/
  | op0Func13 (srcA srcB dst : Reg)
  /-- Opcode 0, function code 14: no named operation (R125). -/
  | op0Func14 (srcA srcB dst : Reg)
  /-- Opcode 0, function code 15: no named operation (R125). -/
  | op0Func15 (srcA srcB dst : Reg)
  /-- `addi $dst, $src, imm`; `movi` is the form with `src = 0` (R107, R126). -/
  | addi (src dst : Reg) (imm : Int)
  /-- `j target`; `halt` is the form whose target is its own address (R107, R141). -/
  | j (target : Addr)
  /-- `jal target` (R142). -/
  | jal (target : Addr)
  /-- `lw $dst, imm($addrReg)` (R161). -/
  | lw (addrReg dst : Reg) (imm : Int)
  /-- `sw $srcReg, imm($addrReg)` (R162). -/
  | sw (addrReg srcReg : Reg) (imm : Int)
  /-- `jeq $regA, $regB, pc + 1 + rel` (R143). -/
  | jeq (regA regB : Reg) (rel : Int)
  /-- `slti $dst, $src, imm` (R127). -/
  | slti (src dst : Reg) (imm7 : BitVec 7)
deriving DecidableEq, Repr

/-- The mnemonic of the instruction's row in spec/opcode_table.json. -/
def Instr.mnemonic : Instr → String
  | .add _ _ _ => "add"
  | .sub _ _ _ => "sub"
  | .or _ _ _ => "or"
  | .and _ _ _ => "and"
  | .slt _ _ _ => "slt"
  | .jr _ _ => "jr"
  | .op0Func5 _ _ _ => "op0.func5"
  | .op0Func6 _ _ _ => "op0.func6"
  | .op0Func7 _ _ _ => "op0.func7"
  | .op0Func9 _ _ _ => "op0.func9"
  | .op0Func10 _ _ _ => "op0.func10"
  | .op0Func11 _ _ _ => "op0.func11"
  | .op0Func12 _ _ _ => "op0.func12"
  | .op0Func13 _ _ _ => "op0.func13"
  | .op0Func14 _ _ _ => "op0.func14"
  | .op0Func15 _ _ _ => "op0.func15"
  | .addi _ _ _ => "addi"
  | .j _ => "j"
  | .jal _ => "jal"
  | .lw _ _ _ => "lw"
  | .sw _ _ _ => "sw"
  | .jeq _ _ _ => "jeq"
  | .slti _ _ _ => "slti"

end Sys2Proof
end

