-- ==== Sys2Proof/WellFormed.lean ====
section
/-! DEFINITION. Which terms of `Instr` are instructions (spec/30_encoding.md R94): a register number, a target and a
bit pattern are in range by their types, so the one check is the range of a sign-extended immediate. -/

namespace Sys2Proof

/-- The range of `simm7(w)`, -64 to 63 (R94). -/
def immInRange (imm : Int) : Bool := decide (-64 ≤ imm) && decide (imm ≤ 63)

/-- The instruction has an encoding. -/
def Instr.wellFormed : Instr → Bool
  | .add _ _ _ => true
  | .sub _ _ _ => true
  | .or _ _ _ => true
  | .and _ _ _ => true
  | .slt _ _ _ => true
  | .jr _ _ => true
  | .op0Func5 _ _ _ => true
  | .op0Func6 _ _ _ => true
  | .op0Func7 _ _ _ => true
  | .op0Func9 _ _ _ => true
  | .op0Func10 _ _ _ => true
  | .op0Func11 _ _ _ => true
  | .op0Func12 _ _ _ => true
  | .op0Func13 _ _ _ => true
  | .op0Func14 _ _ _ => true
  | .op0Func15 _ _ _ => true
  | .addi _ _ imm => immInRange imm
  | .j _ => true
  | .jal _ => true
  | .lw _ _ imm => immInRange imm
  | .sw _ _ imm => immInRange imm
  | .jeq _ _ imm => immInRange imm
  | .slti _ _ _ => true

end Sys2Proof
end

