-- ==== Sys2Proof/Decode.lean ====
section
/-! DEFINITION. From a 16-bit word to an instruction and back (spec/30_encoding.md R90 to R105). Decoding is total:
"there is no illegal encoding" (R102), so nothing is rejected. -/

namespace Sys2Proof

/-- `w[lo + len - 1 : lo]` (R9). -/
def field (w : Word) (lo len : Nat) : BitVec len := w.extractLsb' lo len

/-- The register a 3-bit field of the word selects (R97); `lo` is the field's lowest bit. -/
def regField (w : Word) (lo : Nat) : Reg := (field w lo 3).toFin

/-- The 3-bit field that selects a register (R97). -/
def regBits (r : Reg) : BitVec 3 := BitVec.ofFin r

/-- `simm7`: "imm7 sign-extended (values>63 → imm-128)" (R94). -/
def simm7 (v : BitVec 7) : Int := if v.toNat > 63 then (v.toNat : Int) - 128 else v.toNat

/-- The 7-bit field that `simm7` reads back as `imm`, for -64 to 63 (R94). -/
def immBits (imm : Int) : BitVec 7 := BitVec.ofInt 7 imm

/-- The opcode, `w[15:13]` (R90, R98). -/
def opcodeField (w : Word) : Fin 8 := (field w 13 3).toFin

/-- The function code of opcode 0, `w[3:0]` (R91, R99). -/
def funcField (w : Word) : Fin 16 := (field w 0 4).toFin

/-- Opcode 0 by its function code (R99, R100). The last arm is function code 15: the field has no other value left
(`decodeFunc_last_arm` in Laws/Encoding.lean). -/
def decodeFunc (w : Word) : Instr :=
  match (funcField w).val with
  | 0 => .add (regField w 10) (regField w 7) (regField w 4)
  | 1 => .sub (regField w 10) (regField w 7) (regField w 4)
  | 2 => .or (regField w 10) (regField w 7) (regField w 4)
  | 3 => .and (regField w 10) (regField w 7) (regField w 4)
  | 4 => .slt (regField w 10) (regField w 7) (regField w 4)
  | 5 => .op0Func5 (regField w 10) (regField w 7) (regField w 4)
  | 6 => .op0Func6 (regField w 10) (regField w 7) (regField w 4)
  | 7 => .op0Func7 (regField w 10) (regField w 7) (regField w 4)
  | 8 => .jr (regField w 10) (field w 4 6)
  | 9 => .op0Func9 (regField w 10) (regField w 7) (regField w 4)
  | 10 => .op0Func10 (regField w 10) (regField w 7) (regField w 4)
  | 11 => .op0Func11 (regField w 10) (regField w 7) (regField w 4)
  | 12 => .op0Func12 (regField w 10) (regField w 7) (regField w 4)
  | 13 => .op0Func13 (regField w 10) (regField w 7) (regField w 4)
  | 14 => .op0Func14 (regField w 10) (regField w 7) (regField w 4)
  | _ => .op0Func15 (regField w 10) (regField w 7) (regField w 4)

/-- The instruction a word is (R98, R105). -/
def decode (w : Word) : Instr :=
  match opcodeField w with
  | 0 => decodeFunc w
  | 1 => .addi (regField w 10) (regField w 7) (simm7 (field w 0 7))
  | 2 => .j (field w 0 13)
  | 3 => .jal (field w 0 13)
  | 4 => .lw (regField w 10) (regField w 7) (simm7 (field w 0 7))
  | 5 => .sw (regField w 10) (regField w 7) (simm7 (field w 0 7))
  | 6 => .jeq (regField w 10) (regField w 7) (simm7 (field w 0 7))
  | 7 => .slti (regField w 10) (regField w 7) (field w 0 7)

/-- The instruction the decoder reads from a word whose bits are `w`, numbered as spec/opcode_table.json numbers
them; every row has one 16-bit word (R90), and the bits above `nbits` are zero. -/
def decodeTableWord (nbits w : Nat) : Option Instr := some (decode (BitVec.ofNat 16 (w % 2 ^ nbits)))

/-- Format RRR (R91): opcode 0, three registers, the function code. -/
def encodeRRR (srcA srcB dst : Reg) (func : BitVec 4) : Word :=
  0#3 ++ regBits srcA ++ regBits srcB ++ regBits dst ++ func

/-- Format RRI (R92): opcode, two registers, the 7-bit immediate. -/
def encodeRRI (opcode : BitVec 3) (rA rB : Reg) (imm7 : BitVec 7) : Word :=
  opcode ++ regBits rA ++ regBits rB ++ imm7

/-- Format J (R93): opcode, the 13-bit target. -/
def encodeJ (opcode : BitVec 3) (target : Addr) : Word := opcode ++ target

/-- The word of an instruction; for a well-formed one, the word that decodes to it (R91 to R99). -/
def encode : Instr → Word
  | .add srcA srcB dst => encodeRRR srcA srcB dst 0#4
  | .sub srcA srcB dst => encodeRRR srcA srcB dst 1#4
  | .or srcA srcB dst => encodeRRR srcA srcB dst 2#4
  | .and srcA srcB dst => encodeRRR srcA srcB dst 3#4
  | .slt srcA srcB dst => encodeRRR srcA srcB dst 4#4
  | .jr srcA ignored => 0#3 ++ regBits srcA ++ ignored ++ 8#4
  | .op0Func5 srcA srcB dst => encodeRRR srcA srcB dst 5#4
  | .op0Func6 srcA srcB dst => encodeRRR srcA srcB dst 6#4
  | .op0Func7 srcA srcB dst => encodeRRR srcA srcB dst 7#4
  | .op0Func9 srcA srcB dst => encodeRRR srcA srcB dst 9#4
  | .op0Func10 srcA srcB dst => encodeRRR srcA srcB dst 10#4
  | .op0Func11 srcA srcB dst => encodeRRR srcA srcB dst 11#4
  | .op0Func12 srcA srcB dst => encodeRRR srcA srcB dst 12#4
  | .op0Func13 srcA srcB dst => encodeRRR srcA srcB dst 13#4
  | .op0Func14 srcA srcB dst => encodeRRR srcA srcB dst 14#4
  | .op0Func15 srcA srcB dst => encodeRRR srcA srcB dst 15#4
  | .addi src dst imm => encodeRRI 1#3 src dst (immBits imm)
  | .j target => encodeJ 2#3 target
  | .jal target => encodeJ 3#3 target
  | .lw addrReg dst imm => encodeRRI 4#3 addrReg dst (immBits imm)
  | .sw addrReg srcReg imm => encodeRRI 5#3 addrReg srcReg (immBits imm)
  | .jeq regA regB rel => encodeRRI 6#3 regA regB (immBits rel)
  | .slti src dst imm7 => encodeRRI 7#3 src dst imm7

/-- A row of spec/opcode_table.json: the words `w` with `w &&& mask = value` are the row's. -/
structure OpcodeRow where
  mnemonic : String
  value    : Word
  mask     : Word
deriving DecidableEq, Repr

/-- The word is one of the row's. -/
def OpcodeRow.covers (row : OpcodeRow) (w : Word) : Bool := w &&& row.mask == row.value

/-- The rows of opcode 0 (R99), as spec/opcode_table.json lists them. -/
def opcodeZeroRows : List OpcodeRow := [
  ⟨"add", 0x0000#16, 0xE00F#16⟩,
  ⟨"sub", 0x0001#16, 0xE00F#16⟩,
  ⟨"or", 0x0002#16, 0xE00F#16⟩,
  ⟨"and", 0x0003#16, 0xE00F#16⟩,
  ⟨"slt", 0x0004#16, 0xE00F#16⟩,
  ⟨"jr", 0x0008#16, 0xE00F#16⟩,
  ⟨"op0.func5", 0x0005#16, 0xE00F#16⟩,
  ⟨"op0.func6", 0x0006#16, 0xE00F#16⟩,
  ⟨"op0.func7", 0x0007#16, 0xE00F#16⟩,
  ⟨"op0.func9", 0x0009#16, 0xE00F#16⟩,
  ⟨"op0.func10", 0x000A#16, 0xE00F#16⟩,
  ⟨"op0.func11", 0x000B#16, 0xE00F#16⟩,
  ⟨"op0.func12", 0x000C#16, 0xE00F#16⟩,
  ⟨"op0.func13", 0x000D#16, 0xE00F#16⟩,
  ⟨"op0.func14", 0x000E#16, 0xE00F#16⟩,
  ⟨"op0.func15", 0x000F#16, 0xE00F#16⟩]

/-- The rows of the other opcodes (R98). -/
def otherOpcodeRows : List OpcodeRow := [
  ⟨"addi", 0x2000#16, 0xE000#16⟩,
  ⟨"j", 0x4000#16, 0xE000#16⟩,
  ⟨"jal", 0x6000#16, 0xE000#16⟩,
  ⟨"lw", 0x8000#16, 0xE000#16⟩,
  ⟨"sw", 0xA000#16, 0xE000#16⟩,
  ⟨"jeq", 0xC000#16, 0xE000#16⟩,
  ⟨"slti", 0xE000#16, 0xE000#16⟩]

/-- spec/opcode_table.json, written beside the decoder and not used by it. -/
def opcodeTable : List OpcodeRow := opcodeZeroRows ++ otherOpcodeRows

end Sys2Proof
end

