-- ==== Sys2Proof/Machine/State.lean ====
section
/-! DEFINITION. The state of the machine as plain data (spec/10_state.md R20 to R38), the reasons a step can stop, and
the state after reset. -/

namespace Sys2Proof.Machine

/-- One word of memory at a word address. The unit of this memory is the word: there are no bytes (R53, R54;
notes/assumptions/1.md). -/
abbrev Cell := Nat × Word

/-- Memory (R31, R50): the words that differ from what an unlisted address reads as, addresses strictly rising
(`Memory.wf` in Ops.lean says so; notes/assumptions/1.md and 2.md). -/
abbrev Memory := List Cell

/-- The register file (R21). -/
abbrev RegFile := Vector Word 8

/-- A Tag Set: tags, least recently used first (R32, R33). -/
abbrev TagSet := List Nat

/-- A cache level: its configuration and `numRows` Tag Sets (R20, R32, R34). -/
structure CacheLevel where
  cfg  : LevelConfig
  rows : List TagSet
deriving DecidableEq, Repr

/-- The configured cache hierarchy (R8, R14, R32). -/
inductive CacheHierarchy where
  | none
  | one (l1 : CacheLevel)
  | two (l1 l2 : CacheLevel)
deriving DecidableEq, Repr

/-- The kind of a reported access (R15). -/
inductive AccessKind where
  | load
  | store
deriving DecidableEq, Repr

/-- The access record of a performed load or store (R15). -/
structure Access where
  effAddr : Addr
  kind    : AccessKind
  pc      : Addr
deriving DecidableEq, Repr

/-- The cache identifier of a record (R72). -/
inductive LevelName where
  | L1
  | L2
deriving DecidableEq, Repr

/-- The status of a trace record (R70, R71). -/
inductive TraceStatus where
  | HIT
  | MISS
  | SW
deriving DecidableEq, Repr

/-- A trace record (R16, R72). -/
structure TraceRecord where
  level   : LevelName
  status  : TraceStatus
  pc      : Addr
  effAddr : Addr
  row     : Nat
deriving DecidableEq, Repr

/-- A summary record (R16, R77). -/
structure SummaryRecord where
  level     : LevelName
  size      : Nat
  assoc     : Nat
  blockSize : Nat
  numRows   : Nat
deriving DecidableEq, Repr

/-- The whole machine: the engine's four (R20), the cache hierarchy (R32), the run's parameters (R8), and the output
streams of the run, which no step reads (R38; notes/assumptions/13.md). -/
structure State where
  pc        : Addr
  x         : RegFile
  mem       : Memory
  halted    : Bool
  caches    : CacheHierarchy
  params    : RunParams
  accesses  : List Access
  trace     : List TraceRecord
  summaries : List SummaryRecord
deriving DecidableEq, Repr

/-- Why the machine stops. -/
inductive Fault where
  /-- Raised by `step` in a halted state, which has no step (R29, R189, R205, D17). Safe: the halted state is the end
  of the run (notes/assumptions/14.md). -/
  | halted
deriving DecidableEq, Repr

/-- Why a word is given no meaning. -/
inductive Refusal where
  /-- Raised by `exec` for an instruction without a meaning yet; no arm raises it. Safe. -/
  | notModelled (mnemonic : String)
  /-- Raised by opcode 0 with this unnamed function code, whatever `dst` is, under `UNDEF_FUNC = refuse`
  only (R103, R125, D6). Safe: notes/assumptions/3.md and 4.md. -/
  | unnamedFunction (func : Nat)
deriving DecidableEq, Repr

/-- The errors before the first step, with what each records (R181, D15). -/
inductive BootError where
  | malformedInputLine (line : String)
  | addressSequenceError (line : String)
  | programTooLarge (line : String)
  | invalidCacheConfiguration (args : List Int)
deriving DecidableEq, Repr

/-- The machine right after reset (R37, R200), for the run's arguments of notes/assumptions/12.md: an empty image, no
cache, and the spec's choice of each parameter. `boot` (Boot.lean) gives the reset state for any arguments. -/
def State.reset : State where
  pc        := 0
  x         := Vector.replicate 8 0
  mem       := []
  halted    := false
  caches    := .none
  params    := RunParams.specChoice
  accesses  := []
  trace     := []
  summaries := []

end Sys2Proof.Machine
end

