-- ==== Sys2Proof/Machine/Cache.lean ====
section
/-! DEFINITION. The cache hierarchy observer (spec/20_memory.md R65 to R78): tags only, least recently used eviction,
no effect on the engine. -/

namespace Sys2Proof.Machine

/-- `numRows = size div (blockSize * assoc)` (R34, R65). -/
def numRows (c : LevelConfig) : Nat := c.size / (c.blockSize * c.assoc)

/-- `block = a div blockSize` (R66). -/
def blockOf (c : LevelConfig) (a : Addr) : Nat := a.toNat / c.blockSize

/-- `row = block mod numRows` (R66). -/
def rowOf (c : LevelConfig) (a : Addr) : Nat := blockOf c a % numRows c

/-- `tag = block div numRows` (R66). -/
def tagOf (c : LevelConfig) (a : Addr) : Nat := blockOf c a / numRows c

/-- A level of this configuration with every Tag Set empty (R37, D8). -/
def coldLevel (c : LevelConfig) : CacheLevel := { cfg := c, rows := List.replicate (numRows c) [] }

/-- A Tag Set after the lookup of a tag: a hit moves it to the most recently used end (R68); a miss inserts it there,
evicting the least recently used tag of a full set (R69). -/
def TagSet.touch (assoc : Nat) (s : TagSet) (tag : Nat) : TagSet :=
  if tag ∈ s then s.erase tag ++ [tag]
  else (if s.length = assoc then s.tail else s) ++ [tag]

/-- The Tag Set of a row. -/
def CacheLevel.tagSet (l : CacheLevel) (row : Nat) : TagSet := l.rows.getD row []

/-- Whether an access to this address hits the level (R67). -/
def CacheLevel.hit (l : CacheLevel) (a : Addr) : Bool := decide (tagOf l.cfg a ∈ l.tagSet (rowOf l.cfg a))

/-- The level after an access to this address, load or store alike (R67). -/
def CacheLevel.touch (l : CacheLevel) (a : Addr) : CacheLevel :=
  { l with rows := l.rows.set (rowOf l.cfg a) (TagSet.touch l.cfg.assoc (l.tagSet (rowOf l.cfg a)) (tagOf l.cfg a)) }

/-- The status a level logs (R70, R71). -/
def traceStatus (kind : AccessKind) (hit : Bool) : TraceStatus :=
  match kind with
  | .load => if hit then .HIT else .MISS
  | .store => .SW

/-- The record a level logs for an access (R70 to R72). -/
def CacheLevel.record (l : CacheLevel) (name : LevelName) (acc : Access) : TraceRecord :=
  { level := name, status := traceStatus acc.kind (l.hit acc.effAddr), pc := acc.pc, effAddr := acc.effAddr,
    row := rowOf l.cfg acc.effAddr }

/-- L2 is consulted for every store, and for a load that misses L1 (R73 to R75). -/
def consultsL2 (l1 : CacheLevel) (acc : Access) : Bool := acc.kind == .store || !l1.hit acc.effAddr

/-- One access through the hierarchy: its state after, and the records it logs, L1's first (R73, R76, D11). -/
def CacheHierarchy.observe (h : CacheHierarchy) (acc : Access) : CacheHierarchy × List TraceRecord :=
  match h with
  | .none => (.none, [])
  | .one l1 => (.one (l1.touch acc.effAddr), [l1.record .L1 acc])
  | .two l1 l2 =>
    if consultsL2 l1 acc then
      (.two (l1.touch acc.effAddr) (l2.touch acc.effAddr), [l1.record .L1 acc, l2.record .L2 acc])
    else (.two (l1.touch acc.effAddr) l2, [l1.record .L1 acc])

/-- Accesses in program order, and all the records they log (R76). -/
def CacheHierarchy.observeAll (h : CacheHierarchy) : List Access → CacheHierarchy × List TraceRecord
  | [] => (h, [])
  | acc :: rest =>
    (((h.observe acc).1.observeAll rest).1, (h.observe acc).2 ++ ((h.observe acc).1.observeAll rest).2)

/-- The configuration of each configured level, L1's first: `cacheCfg` (R14, R34). -/
def CacheHierarchy.configs : CacheHierarchy → List LevelConfig
  | .none => []
  | .one l1 => [l1.cfg]
  | .two l1 l2 => [l1.cfg, l2.cfg]

/-- The same hierarchy with every Tag Set empty (R37, D8). -/
def CacheHierarchy.cold : CacheHierarchy → CacheHierarchy
  | .none => .none
  | .one l1 => .one (coldLevel l1.cfg)
  | .two l1 l2 => .two (coldLevel l1.cfg) (coldLevel l2.cfg)

/-- The summary of a level (R77). -/
def summaryOf (name : LevelName) (c : LevelConfig) : SummaryRecord :=
  { level := name, size := c.size, assoc := c.assoc, blockSize := c.blockSize, numRows := numRows c }

/-- The summary records, L1's first (R77, D11). -/
def CacheHierarchy.summaryRecords : CacheHierarchy → List SummaryRecord
  | .none => []
  | .one l1 => [summaryOf .L1 l1.cfg]
  | .two l1 l2 => [summaryOf .L1 l1.cfg, summaryOf .L2 l2.cfg]

end Sys2Proof.Machine
end

