-- ==== Sys2Proof/Machine/Ops.lean ====
section
/-! DEFINITION. The named operations over registers, memory and the program counter (spec/00_scope.md R11), and the
access report. This machine takes no exception and returns from none: it has no trap entry, saved pc, cause or vector
(spec/60_exceptions.md R180, R184, R185), so there is no operation for either. -/

namespace Sys2Proof.Machine

/-- `MemRead(a, 1)` (R52). -/
def Memory.read (m : Memory) (a : Addr) : Word :=
  match m.find? (fun c => c.1 == a.toNat) with
  | some c => c.2
  | none => unlistedWord

/-- A cell put into its place among rising addresses, before any cell of a higher address. -/
def Memory.insert (c : Cell) : Memory → Memory
  | [] => [c]
  | d :: m => if c.1 < d.1 then c :: d :: m else d :: Memory.insert c m

/-- `MemWrite(a, 1, v)` (R52). A word that equals what an unlisted address reads as is not listed. -/
def Memory.write (m : Memory) (a : Addr) (v : Word) : Memory :=
  let rest := m.filter (fun c => c.1 != a.toNat)
  if v = unlistedWord then rest else Memory.insert (a.toNat, v) rest

/-- The addresses of a list of cells strictly rise. -/
def Memory.rising : Memory → Bool
  | [] => true
  | [_] => true
  | c :: d :: m => decide (c.1 < d.1) && Memory.rising (d :: m)

/-- The canonical form: rising addresses of the address space, none listed needlessly. -/
def Memory.wf (m : Memory) : Bool :=
  Memory.rising m && m.all (fun c => decide (c.1 < memWords) && c.2 != unlistedWord)

/-- `x[r]` (R11). Register 0 needs no special read: it is never written (R22). -/
def State.readReg (s : State) (r : Reg) : Word := s.x.get r

/-- `if r != 0: x[r] <- v`: a write to register 0 is skipped (R22, R97). -/
def State.writeReg (s : State) (r : Reg) (v : Word) : State :=
  if r = 0 then s else { s with x := s.x.set r.val v r.isLt }

/-- `pc <- t` (R11). -/
def State.setPc (s : State) (t : Addr) : State := { s with pc := t }

/-- `pc <- (pc + 1) mod 8192` (R25, R27). -/
def State.advance (s : State) : State := s.setPc (s.pc + 1)

/-- `Halt()`: the halt flag is set and nothing else changes (R11, R141). -/
def State.halt (s : State) : State := { s with halted := true }

/-- `MemRead(a, 1)` of the machine's memory (R59: the same memory for fetch, load and store). -/
def State.load (s : State) (a : Addr) : Word := s.mem.read a

/-- `MemWrite(a, 1, v)` of the machine's memory. -/
def State.store (s : State) (a : Addr) (v : Word) : State := { s with mem := s.mem.write a v }

/-- The word at the program counter; never reported to the cache hierarchy (R26, R59). -/
def State.fetch (s : State) : Word := s.load s.pc

/-- `Report(a, kind, pc)`: the access is handed to the cache hierarchy, which processes it whole, and its records are
logged, before the step ends (R60, R73, R163). -/
def State.report (s : State) (a : Addr) (kind : AccessKind) : State :=
  let acc : Access := { effAddr := a, kind := kind, pc := s.pc }
  { s with
    caches   := (s.caches.observe acc).1
    accesses := s.accesses ++ [acc]
    trace    := s.trace ++ (s.caches.observe acc).2 }

end Sys2Proof.Machine
end

