-- ==== Sys2Proof/Machine/Operands.lean ====
section
/-! DEFINITION. Operand forms: immediates and computed addresses. Each is computed on the integers and narrowed once at
the end (spec/00_scope.md R10, spec/40_arith.md R128). -/

namespace Sys2Proof.Machine

/-- A register value plus a signed immediate, modulo 65536 (R94, R126). -/
def addImmediate (v : Word) (imm : Int) : Word := BitVec.ofInt 16 (v.toNat + imm)

/-- `uimm16`: the 7-bit immediate of `slti` as an unsigned 16-bit value (R95, R127, D7). -/
def uimm16 (mode : SltiImm) (imm7 : BitVec 7) : Word :=
  match mode with
  | .sext => BitVec.ofInt 16 (simm7 imm7)
  | .zext => BitVec.ofNat 16 imm7.toNat

/-- `EA(addrReg, w) = (x[addrReg] + simm7(w)) mod 8192` (R160). -/
def effectiveAddress (s : State) (addrReg : Reg) (imm : Int) : Addr :=
  BitVec.ofInt 13 ((s.readReg addrReg).toNat + imm)

/-- `(pc + 1 + rel) mod 8192` (R143). -/
def branchTarget (pc : Addr) (rel : Int) : Addr := BitVec.ofInt 13 (pc.toNat + 1 + rel)

/-- The address in a register: its low 13 bits (R140, D5). -/
def registerTarget (v : Word) : Addr := BitVec.ofNat 13 v.toNat

/-- The link value `(pc + 1) mod 8192`, zero-extended to 16 bits (R142). -/
def linkValue (pc : Addr) : Word := BitVec.ofNat 16 (pc + 1).toNat

end Sys2Proof.Machine
end

