-- ==== Sys2Proof/Machine/Flags.lean ====
section
/-! DEFINITION. The machine has no status flags, condition codes or predicates (spec/10_state.md R28): a comparison
writes 0 or 1 to a register. That value is computed here. -/

namespace Sys2Proof.Machine

/-- The unsigned comparison of `slt` and `slti`, as the word 1 or 0 (R124, R127, R130). -/
def lessThan (a b : Word) : Word := if a.toNat < b.toNat then 1 else 0

end Sys2Proof.Machine
end

