-- ==== Sys2Proof/Machine/Arith.lean ====
section
/-! DEFINITION. Arithmetic, logic and compare: spec/40_arith.md R120 to R127. -/

namespace Sys2Proof.Machine

/-- A register result: the write, skipped for register 0, and the step to the next word (R22, R27). -/
def finish (dst : Reg) (v : Word) (s : State) : Host.Outcome State Fault Refusal := .next (s.writeReg dst v).advance

/-- R120. -/
def execAdd (srcA srcB dst : Reg) (s : State) : Host.Outcome State Fault Refusal :=
  finish dst (s.readReg srcA + s.readReg srcB) s

/-- R121. -/
def execSub (srcA srcB dst : Reg) (s : State) : Host.Outcome State Fault Refusal :=
  finish dst (s.readReg srcA - s.readReg srcB) s

/-- R122. -/
def execOr (srcA srcB dst : Reg) (s : State) : Host.Outcome State Fault Refusal :=
  finish dst (s.readReg srcA ||| s.readReg srcB) s

/-- R123. -/
def execAnd (srcA srcB dst : Reg) (s : State) : Host.Outcome State Fault Refusal :=
  finish dst (s.readReg srcA &&& s.readReg srcB) s

/-- R124. -/
def execSlt (srcA srcB dst : Reg) (s : State) : Host.Outcome State Fault Refusal :=
  finish dst (lessThan (s.readReg srcA) (s.readReg srcB)) s

/-- Opcode 0 with a function code that names no operation: a no-op, or refused under `UNDEF_FUNC = refuse`, the same
whatever `dst` is (R103, R125, D6; DEDUCED for `dst = 0` under `refuse`, notes/assumptions/4.md). -/
def unnamedFunction (func : Nat) (s : State) : Host.Outcome State Fault Refusal :=
  match s.params.undefFunc with
  | .nop => .next s.advance
  | .refuse => .refused (.unnamedFunction func)

/-- R125, function code 5. -/
def execOp0Func5 (_srcA _srcB _dst : Reg) (s : State) : Host.Outcome State Fault Refusal := unnamedFunction 5 s

/-- R125, function code 6. -/
def execOp0Func6 (_srcA _srcB _dst : Reg) (s : State) : Host.Outcome State Fault Refusal := unnamedFunction 6 s

/-- R125, function code 7. -/
def execOp0Func7 (_srcA _srcB _dst : Reg) (s : State) : Host.Outcome State Fault Refusal := unnamedFunction 7 s

/-- R125, function code 9. -/
def execOp0Func9 (_srcA _srcB _dst : Reg) (s : State) : Host.Outcome State Fault Refusal := unnamedFunction 9 s

/-- R125, function code 10. -/
def execOp0Func10 (_srcA _srcB _dst : Reg) (s : State) : Host.Outcome State Fault Refusal := unnamedFunction 10 s

/-- R125, function code 11. -/
def execOp0Func11 (_srcA _srcB _dst : Reg) (s : State) : Host.Outcome State Fault Refusal := unnamedFunction 11 s

/-- R125, function code 12. -/
def execOp0Func12 (_srcA _srcB _dst : Reg) (s : State) : Host.Outcome State Fault Refusal := unnamedFunction 12 s

/-- R125, function code 13. -/
def execOp0Func13 (_srcA _srcB _dst : Reg) (s : State) : Host.Outcome State Fault Refusal := unnamedFunction 13 s

/-- R125, function code 14. -/
def execOp0Func14 (_srcA _srcB _dst : Reg) (s : State) : Host.Outcome State Fault Refusal := unnamedFunction 14 s

/-- R125, function code 15. -/
def execOp0Func15 (_srcA _srcB _dst : Reg) (s : State) : Host.Outcome State Fault Refusal := unnamedFunction 15 s

/-- R126. -/
def execAddi (src dst : Reg) (imm : Int) (s : State) : Host.Outcome State Fault Refusal :=
  finish dst (addImmediate (s.readReg src) imm) s

/-- R127. -/
def execSlti (src dst : Reg) (imm7 : BitVec 7) (s : State) : Host.Outcome State Fault Refusal :=
  finish dst (lessThan (s.readReg src) (uimm16 s.params.sltiImm imm7)) s

end Sys2Proof.Machine
end

