-- ==== Sys2Proof/Machine/Control.lean ====
section
/-! DEFINITION. Control transfer: spec/41_control.md R140 to R146. -/

namespace Sys2Proof.Machine

/-- R140. -/
def execJr (srcA : Reg) (_ignored : BitVec 6) (s : State) : Host.Outcome State Fault Refusal :=
  .next (s.setPc (registerTarget (s.readReg srcA)))

/-- R141: a `j` to its own address halts, and the test is made before the pc changes. -/
def execJ (target : Addr) (s : State) : Host.Outcome State Fault Refusal :=
  .next (if target = s.pc then s.halt else s.setPc target)

/-- R142. -/
def execJal (target : Addr) (s : State) : Host.Outcome State Fault Refusal :=
  .next ((s.writeReg linkReg (linkValue s.pc)).setPc target)

/-- R143. -/
def execJeq (regA regB : Reg) (rel : Int) (s : State) : Host.Outcome State Fault Refusal :=
  .next (if s.readReg regA = s.readReg regB then s.setPc (branchTarget s.pc rel) else s.advance)

end Sys2Proof.Machine
end

