-- ==== Sys2Proof/Machine/LoadStore.lean ====
section
/-! DEFINITION. Load and store: spec/42_loadstore.md R160 to R163. -/

namespace Sys2Proof.Machine

/-- R161: with `dst = 0` nothing is read and nothing reported. -/
def execLw (addrReg dst : Reg) (imm : Int) (s : State) : Host.Outcome State Fault Refusal :=
  let a := effectiveAddress s addrReg imm
  .next (if dst = 0 then s.advance else ((s.writeReg dst (s.load a)).report a .load).advance)

/-- R162. -/
def execSw (addrReg srcReg : Reg) (imm : Int) (s : State) : Host.Outcome State Fault Refusal :=
  let a := effectiveAddress s addrReg imm
  .next ((s.store a (s.readReg srcReg)).report a .store).advance

end Sys2Proof.Machine
end

