-- ==== Sys2Proof/Machine/Dispatch.lean ====
section
/-! DEFINITION. One arm per instruction (spec/30_encoding.md R105: "execution becomes a single match over the variant"). -/

namespace Sys2Proof.Machine

def exec (i : Instr) (s : State) : Host.Outcome State Fault Refusal :=
  match i with
  | .add srcA srcB dst => Sys2Proof.Machine.execAdd srcA srcB dst s
  | .sub srcA srcB dst => Sys2Proof.Machine.execSub srcA srcB dst s
  | .or srcA srcB dst => Sys2Proof.Machine.execOr srcA srcB dst s
  | .and srcA srcB dst => Sys2Proof.Machine.execAnd srcA srcB dst s
  | .slt srcA srcB dst => Sys2Proof.Machine.execSlt srcA srcB dst s
  | .jr srcA ignored => Sys2Proof.Machine.execJr srcA ignored s
  | .op0Func5 srcA srcB dst => Sys2Proof.Machine.execOp0Func5 srcA srcB dst s
  | .op0Func6 srcA srcB dst => Sys2Proof.Machine.execOp0Func6 srcA srcB dst s
  | .op0Func7 srcA srcB dst => Sys2Proof.Machine.execOp0Func7 srcA srcB dst s
  | .op0Func9 srcA srcB dst => Sys2Proof.Machine.execOp0Func9 srcA srcB dst s
  | .op0Func10 srcA srcB dst => Sys2Proof.Machine.execOp0Func10 srcA srcB dst s
  | .op0Func11 srcA srcB dst => Sys2Proof.Machine.execOp0Func11 srcA srcB dst s
  | .op0Func12 srcA srcB dst => Sys2Proof.Machine.execOp0Func12 srcA srcB dst s
  | .op0Func13 srcA srcB dst => Sys2Proof.Machine.execOp0Func13 srcA srcB dst s
  | .op0Func14 srcA srcB dst => Sys2Proof.Machine.execOp0Func14 srcA srcB dst s
  | .op0Func15 srcA srcB dst => Sys2Proof.Machine.execOp0Func15 srcA srcB dst s
  | .addi src dst imm => Sys2Proof.Machine.execAddi src dst imm s
  | .j target => Sys2Proof.Machine.execJ target s
  | .jal target => Sys2Proof.Machine.execJal target s
  | .lw addrReg dst imm => Sys2Proof.Machine.execLw addrReg dst imm s
  | .sw addrReg srcReg imm => Sys2Proof.Machine.execSw addrReg srcReg imm s
  | .jeq regA regB rel => Sys2Proof.Machine.execJeq regA regB rel s
  | .slti src dst imm7 => Sys2Proof.Machine.execSlti src dst imm7 s

end Sys2Proof.Machine
end

