-- ==== Sys2Proof/Machine/Cycle.lean ====
section
/-! DEFINITION. One step of the engine: fetch, decode, execute (spec/70_reset_and_hazards.md R205), and the placing of
a word where the next step fetches. -/

namespace Sys2Proof.Machine

/-- R205. A halted state has no step (R29, R189, D17): it is a fault by name (notes/assumptions/14.md). -/
def cycle (s : State) : Host.Outcome State Fault Refusal :=
  if s.halted then .fault .halted else exec (decode s.fetch) s

/-- The word stored at the program counter of a state that is not halted (notes/assumptions/12.md). -/
def placeAtPc (s : State) (w : Word) : State := { s.store s.pc w with halted := false }

end Sys2Proof.Machine
end

