-- ==== Sys2Proof/Machine/Step.lean ====
section
/-! DEFINITION. The step function, and the state in which the next step runs a given word. -/

namespace Sys2Proof.Machine

/-- One step (R205). -/
def step (s : State) : Host.Outcome State Fault Refusal := cycle s

/-- The state in which `step` fetches and runs the word `w`, whose bits above `nbits` are zero. -/
def State.withFetchWord (s : State) (nbits w : Nat) : State := placeAtPc s (BitVec.ofNat 16 (w % 2 ^ nbits))

end Sys2Proof.Machine
end

