-- ==== Sys2Proof/Machine/Boot.lean ====
section
/-! DEFINITION. What the host does before the first step and after halt: the loader, the configuration check, reset and
the report (spec/70_reset_and_hazards.md R200 to R204, R209; spec/20_memory.md R65; spec/60_exceptions.md R181 to R183). -/

namespace Sys2Proof.Machine

/-- The rest of `l` after the exact text `p`. -/
def stripPrefix : List Char → List Char → Option (List Char)
  | [], l => some l
  | _ :: _, [] => none
  | c :: p, d :: l => if c = d then stripPrefix p l else none

/-- A decimal digit. -/
def isDecimal (c : Char) : Bool := decide ('0'.toNat ≤ c.toNat) && decide (c.toNat ≤ '9'.toNat)

/-- A binary digit. -/
def isBinary (c : Char) : Bool := c == '0' || c == '1'

/-- The value of a numeral, most significant digit first (R203, D2, D15). -/
def numeral (base : Nat) (ds : List Char) : Nat := ds.foldl (fun n c => n * base + (c.toNat - '0'.toNat)) 0

/-- The text before the address of a line (R201). -/
def linePrefix : List Char := ['r', 'a', 'm', '[']

/-- The text between the address and the binary literal (R201). -/
def lineMiddle : List Char := [']', ' ', '=', ' ', '1', '6', '\'', 'b']

/-- The 16 binary digits and the `;` that end a line (R202), as the word they give (R203). -/
def parseLiteral (l : List Char) : Option Word :=
  if (l.take 16).length = 16 ∧ (l.take 16).all isBinary ∧ l.drop 16 = [';'] then
    some (BitVec.ofNat 16 (numeral 2 (l.take 16)))
  else none

/-- A line `ram[<address>] = 16'b<16-bit binary>;`, without its terminator, as its address and word (R201 to R203,
D15; notes/assumptions/15.md). -/
def parseLine (line : List Char) : Option (Nat × Word) :=
  match stripPrefix linePrefix line with
  | none => none
  | some l =>
    if l.takeWhile isDecimal = [] then none
    else
      match stripPrefix lineMiddle (l.dropWhile isDecimal) with
      | none => none
      | some l' => (parseLiteral l').map (fun w => (numeral 10 (l.takeWhile isDecimal), w))

/-- The lines of a machine-code file from line `i` on, as the words they load; the first bad line decides the error
(R181, R183, R204, D16; notes/assumptions/16.md). -/
def loadLines (i : Nat) : List String → Except BootError (List Word)
  | [] => .ok []
  | line :: rest =>
    match parseLine line.toList with
    | none => .error (.malformedInputLine line)
    | some (a, w) =>
      if a ≠ i then .error (.addressSequenceError line)
      else if memWords ≤ a then .error (.programTooLarge line)
      else
        match loadLines (i + 1) rest with
        | .error e => .error e
        | .ok ws => .ok (w :: ws)

/-- The checks of a level's triple (R65, D10). -/
def checkLevel (size assoc blockSize : Int) : Option LevelConfig :=
  if 0 < size ∧ 0 < assoc ∧ 0 < blockSize ∧ size % (blockSize * assoc) = 0 then
    some { size := size.toNat, assoc := assoc.toNat, blockSize := blockSize.toNat }
  else none

/-- The cache arguments, 0, 3 or 6 integers, as a hierarchy with empty Tag Sets (R65, R182, D8). -/
def checkCacheArgs (args : List Int) : Except BootError CacheHierarchy :=
  match args with
  | [] => .ok .none
  | [s1, a1, b1] =>
    match checkLevel s1 a1 b1 with
    | some c1 => .ok (.one (coldLevel c1))
    | none => .error (.invalidCacheConfiguration args)
  | [s1, a1, b1, s2, a2, b2] =>
    match checkLevel s1 a1 b1, checkLevel s2 a2 b2 with
    | some c1, some c2 => .ok (.two (coldLevel c1) (coldLevel c2))
    | _, _ => .error (.invalidCacheConfiguration args)
  | _ => .error (.invalidCacheConfiguration args)

/-- Words written at rising addresses from `base` on. -/
def loadWords (base : Nat) : List Word → Memory → Memory
  | [], m => m
  | w :: ws, m => loadWords (base + 1) ws (m.write (BitVec.ofNat 13 base) w)

/-- Memory before the image is loaded (R37, D3; notes/assumptions/2.md). -/
def initialMemory : MemInit → Memory
  | .zero => []
  | .arbitrary draw => loadWords 0 (draw.take memWords) []

/-- The reset state of a run (R37, R200 steps 3 to 6). -/
def resetState (init : MemInit) (params : RunParams) (image : List Word) (caches : CacheHierarchy) : State where
  pc        := 0
  x         := Vector.replicate 8 0
  mem       := loadWords 0 image (initialMemory init)
  halted    := false
  caches    := caches
  params    := params
  accesses  := []
  trace     := []
  summaries := caches.summaryRecords

/-- Reset (R200): load the image, then check the configuration, so that a loader error goes first (R183, C9, D23). -/
def boot (init : MemInit) (params : RunParams) (file : List String) (cacheArgs : List Int) :
    Except BootError State :=
  match loadLines 0 file with
  | .error e => .error e
  | .ok image =>
    match checkCacheArgs cacheArgs with
    | .error e => .error e
    | .ok caches => .ok (resetState init params image caches)

/-- The final report (R17, R209). -/
structure Report where
  pc    : Addr
  x     : RegFile
  words : List Word
deriving DecidableEq, Repr

/-- The report of a halted state; any other state has none (R208, R209). -/
def finalReport (s : State) : Option Report :=
  if s.halted then
    some { pc := s.pc, x := s.x, words := (List.range reportWords).map (fun a => s.mem.read (BitVec.ofNat 13 a)) }
  else none

end Sys2Proof.Machine
end

