-- ==== Sys2Proof/Safety.lean ====
section
/-! DEFINITION. The terms in which claims speak of this machine: the engine without its observer, the invariant, runs,
what a step leaves unchanged, and words laid out from their fields. -/

namespace Sys2Proof.Machine

/-- The engine's state: the 4-tuple `(pc, x, mem, halted)` (R20). -/
structure EngineState where
  pc     : Addr
  x      : RegFile
  mem    : Memory
  halted : Bool
deriving DecidableEq, Repr

/-- The engine of a machine. -/
def State.engine (s : State) : EngineState := { pc := s.pc, x := s.x, mem := s.mem, halted := s.halted }

/-- An outcome seen from the engine alone. -/
def engineOutcome : Host.Outcome State Fault Refusal → Host.Outcome EngineState Fault Refusal
  | .next s => .next s.engine
  | .fault f => .fault f
  | .refused r => .refused r

/-- A legal level (R65, D10). -/
abbrev LegalLevel (c : LevelConfig) : Prop :=
  0 < c.size ∧ 0 < c.assoc ∧ 0 < c.blockSize ∧ c.size % (c.blockSize * c.assoc) = 0

/-- A Tag Set holds at most `assoc` tags, none twice (R33), each a tag of some address (R66). -/
structure TagSetWf (c : LevelConfig) (s : TagSet) : Prop where
  bounded : s.length ≤ c.assoc
  nodup   : s.Nodup
  tags    : ∀ t ∈ s, t ≤ 8191 / (c.blockSize * numRows c)

/-- A level is legal, has `numRows` rows, and each row is a well-formed Tag Set (R32 to R34). -/
structure LevelWf (l : CacheLevel) : Prop where
  legal : LegalLevel l.cfg
  rows  : l.rows.length = numRows l.cfg
  sets  : ∀ s ∈ l.rows, TagSetWf l.cfg s

/-- Every configured level is well formed. -/
def CachesWf : CacheHierarchy → Prop
  | .none => True
  | .one l1 => LevelWf l1
  | .two l1 l2 => LevelWf l1 ∧ LevelWf l2

/-- The invariant of the machine: register 0 reads 0 (R22), memory is in its canonical form, and the cache arrays are
well formed (R33, R34). -/
structure Inv (s : State) : Prop where
  zeroReg : s.readReg 0 = 0
  memory  : s.mem.wf = true
  caches  : CachesWf s.caches

/-- A run: any number of steps, each answering a next state (R207). -/
inductive Reaches : State → State → Prop where
  | refl (s : State) : Reaches s s
  | tail {s t u : State} : Reaches s t → step t = .next u → Reaches s u

/-- `n` steps, stopping at the first that answers no next state (R207). -/
def runSteps : Nat → State → Host.Outcome State Fault Refusal
  | 0, s => .next s
  | n + 1, s =>
    match step s with
    | .next t => runSteps n t
    | .fault f => .fault f
    | .refused r => .refused r

/-- Every word of memory reads as before. -/
def SameMemory (s t : State) : Prop := ∀ a, t.mem.read a = s.mem.read a

/-- Every register reads as before. -/
def SameRegisters (s t : State) : Prop := ∀ r, t.readReg r = s.readReg r

/-- The run's parameters, the summary records and the halt flag are as before. -/
def SameRun (s t : State) : Prop := t.params = s.params ∧ t.summaries = s.summaries ∧ t.halted = s.halted

/-- Nothing was reported: the cache arrays and the output streams are as before. -/
def NoReport (s t : State) : Prop := t.caches = s.caches ∧ t.accesses = s.accesses ∧ t.trace = s.trace

/-- Exactly this access was reported and processed whole by the hierarchy (R60, R163). -/
def OneReport (s t : State) (acc : Access) : Prop :=
  t.caches = (s.caches.observe acc).1 ∧ t.accesses = s.accesses ++ [acc] ∧
    t.trace = s.trace ++ (s.caches.observe acc).2

/-- Register `d` holds the number `v`, or is unchanged if it is register 0; every other register reads as before. -/
def OnlyRegister (s t : State) (d : Reg) (v : Int) : Prop :=
  (d ≠ 0 → ((t.readReg d).toNat : Int) = v) ∧ (d = 0 → t.readReg d = s.readReg d) ∧
    ∀ r, r ≠ d → t.readReg r = s.readReg r

/-- The next pc is the word after this one (R27). -/
def NextWord (s t : State) : Prop := t.pc.toNat = (s.pc.toNat + 1) % 8192

/-- `simm7` of a field's number (R94). -/
def simm7Of (k : Nat) : Int := if k > 63 then (k : Int) - 128 else k

/-- The word of format RRR with these fields (R91). -/
def wordRRR (a b d : Reg) (func : Nat) : Word := BitVec.ofNat 16 (a.val * 1024 + b.val * 128 + d.val * 16 + func)

/-- The word of format RRI with these fields (R92). -/
def wordRRI (opcode : Nat) (a b : Reg) (imm7 : Nat) : Word :=
  BitVec.ofNat 16 (opcode * 8192 + a.val * 1024 + b.val * 128 + imm7)

/-- The word of format J with these fields (R93). -/
def wordJ (opcode : Nat) (target : Addr) : Word := BitVec.ofNat 16 (opcode * 8192 + target.toNat)

/-- The accesses an instruction reports in a state (R60): one of a `lw` with a destination, one of every `sw`. -/
def reportsOf (i : Instr) (s : State) : List Access :=
  match i with
  | .lw addrReg dst imm =>
    if dst = 0 then [] else [{ effAddr := effectiveAddress s addrReg imm, kind := .load, pc := s.pc }]
  | .sw addrReg _ imm => [{ effAddr := effectiveAddress s addrReg imm, kind := .store, pc := s.pc }]
  | _ => []

/-- The instruction is a `j` to its own address (R141, R146). -/
def isSelfJump (i : Instr) (s : State) : Bool :=
  match i with
  | .j target => target == s.pc
  | _ => false

end Sys2Proof.Machine
end

