-- ==== Sys2Proof/Certificates/Slice0/Obligations.lean ====
section
/-! DEFINITION. The statements about this machine, each after the rule of spec/ that its docstring names. Where a
statement rests on a choice, its docstring names the entry of notes/assumptions that declares it. -/

open Sys2Proof Sys2Proof.Machine

/-! ### Encoding -/

/-- R91 to R99: decoding the word of a well-formed instruction gives the instruction back, every operand at every
value. -/
def Obligations.DecodeOfEncode : Prop := ∀ i : Instr, i.wellFormed = true → decode (encode i) = i

/-- R102, R105: every one of the 65536 words decodes to a well-formed instruction, and no bit of it is lost. -/
def Obligations.EveryWordIsAnInstruction : Prop :=
  ∀ w : Word, (decode w).wellFormed = true ∧ encode (decode w) = w

/-- R98, R99: a word is covered by exactly one row of spec/opcode_table.json, the row of the instruction it decodes to. -/
def Obligations.DecodeFollowsOpcodeTable : Prop :=
  ∀ (w : Word) (row : OpcodeRow), row ∈ opcodeTable →
    (row.covers w = true ↔ row.mnemonic = (decode w).mnemonic)

/-- R91 to R99: words written out bit by bit decode to the instructions they stand for. -/
def Obligations.WordsWrittenOutDecode : Prop :=
  decode 0b0000010100110000#16 = .add 1 2 3 ∧
  decode 0b0000010100110001#16 = .sub 1 2 3 ∧
  decode 0b0001110000001000#16 = .jr 7 0 ∧
  decode 0b0001111111111001#16 = .op0Func9 7 7 7 ∧
  decode 0b0010100011000000#16 = .addi 2 1 (-64) ∧
  decode 0b0101111111111111#16 = .j 8191 ∧
  decode 0b0110000001100100#16 = .jal 100 ∧
  decode 0b1000000011111111#16 = .lw 0 1 (-1) ∧
  decode 0b1010100110000001#16 = .sw 2 3 1 ∧
  decode 0b1101001001111110#16 = .jeq 4 4 (-2) ∧
  decode 0b1110010101111111#16 = .slti 1 2 127

/-- R100 with R125: opcode 0 decodes func 8 first, whatever `dst` is; any other word with `dst = 0` is a no-op whatever
its func, under `UNDEF_FUNC = nop` always and under `refuse` for func 0 to 4; func 0 to 4 name the five operations.
That an unnamed func is refused under `refuse` with `dst = 0` too is the model's reading of R125 beside R100
(DEDUCED, notes/assumptions/4.md). -/
def Obligations.OpcodeZeroDecodingOrder : Prop :=
  ∀ (w : Word) (s : State), w.toNat / 8192 = 0 →
    (w.toNat % 16 = 8 → ∃ (a : Reg) (g : BitVec 6), decode w = .jr a g ∧ a.val = w.toNat / 1024 % 8) ∧
    (w.toNat % 16 ≠ 8 → w.toNat / 16 % 8 = 0 → s.params.undefFunc = .nop ∨ w.toNat % 16 < 5 →
      ∃ t, exec (decode w) s = .next t ∧ NextWord s t ∧
        SameRegisters s t ∧ SameMemory s t ∧ SameRun s t ∧ NoReport s t) ∧
    (w.toNat % 16 ≠ 8 → 5 ≤ w.toNat % 16 → s.params.undefFunc = .refuse →
      exec (decode w) s = .refused (.unnamedFunction (w.toNat % 16))) ∧
    (w.toNat % 16 < 5 → ∃ a b d : Reg, a.val = w.toNat / 1024 % 8 ∧ b.val = w.toNat / 128 % 8 ∧
      d.val = w.toNat / 16 % 8 ∧
      [Instr.add a b d, .sub a b d, .or a b d, .and a b d, .slt a b d][w.toNat % 16]? = some (decode w))

/-- R101: bits an instruction ignores do not change its effect. The fifth clause takes any two func but 8 under
`UNDEF_FUNC = nop`, and func 0 to 4 under both values: an unnamed func with `dst = 0` is refused under `refuse`, which is
the model's reading of R125 beside R101 (DEDUCED, notes/assumptions/4.md). The last clause holds under both values,
since R125 is the same whatever `dst` is. -/
def Obligations.IgnoredFieldsHaveNoEffect : Prop :=
  ∀ s : State,
    (∀ a g h, exec (.jr a g) s = exec (.jr a h) s) ∧
    (∀ a a' imm imm', exec (.addi a 0 imm) s = exec (.addi a' 0 imm') s) ∧
    (∀ a a' v v', exec (.slti a 0 v) s = exec (.slti a' 0 v') s) ∧
    (∀ a a' imm imm', exec (.lw a 0 imm) s = exec (.lw a' 0 imm') s) ∧
    (∀ (a b a' b' : Reg) (f f' : Fin 16), f ≠ 8 → f' ≠ 8 → s.params.undefFunc = .nop ∨ f.val < 5 ∧ f'.val < 5 →
      exec (decode (wordRRR a b 0 f.val)) s = exec (decode (wordRRR a' b' 0 f'.val)) s) ∧
    (∀ (a b d a' b' d' : Reg) (f : Fin 16),
      f.val ∈ [5, 6, 7, 9, 10, 11, 12, 13, 14, 15] →
      exec (decode (wordRRR a b d f.val)) s = exec (decode (wordRRR a' b' d' f.val)) s)

/-! ### Opcode 0 -/

/-- R120, from its word to its result and its frame. -/
def Obligations.AddWritesSumModulo65536 : Prop :=
  ∀ (a b d : Reg) (s : State), decode (wordRRR a b d 0) = .add a b d ∧
    ∃ t, exec (.add a b d) s = .next t ∧
      OnlyRegister s t d (((s.readReg a).toNat + (s.readReg b).toNat : Int) % 65536) ∧
      NextWord s t ∧ SameMemory s t ∧ SameRun s t ∧ NoReport s t

/-- R121. -/
def Obligations.SubWritesDifferenceModulo65536 : Prop :=
  ∀ (a b d : Reg) (s : State), decode (wordRRR a b d 1) = .sub a b d ∧
    ∃ t, exec (.sub a b d) s = .next t ∧
      OnlyRegister s t d (((s.readReg a).toNat - (s.readReg b).toNat : Int) % 65536) ∧
      NextWord s t ∧ SameMemory s t ∧ SameRun s t ∧ NoReport s t

/-- R122. -/
def Obligations.OrWritesBitwiseOr : Prop :=
  ∀ (a b d : Reg) (s : State), decode (wordRRR a b d 2) = .or a b d ∧
    ∃ t, exec (.or a b d) s = .next t ∧
      OnlyRegister s t d (((s.readReg a).toNat ||| (s.readReg b).toNat : Nat) : Int) ∧
      NextWord s t ∧ SameMemory s t ∧ SameRun s t ∧ NoReport s t

/-- R123. -/
def Obligations.AndWritesBitwiseAnd : Prop :=
  ∀ (a b d : Reg) (s : State), decode (wordRRR a b d 3) = .and a b d ∧
    ∃ t, exec (.and a b d) s = .next t ∧
      OnlyRegister s t d (((s.readReg a).toNat &&& (s.readReg b).toNat : Nat) : Int) ∧
      NextWord s t ∧ SameMemory s t ∧ SameRun s t ∧ NoReport s t

/-- R124: the comparison is unsigned. -/
def Obligations.SltWritesUnsignedComparison : Prop :=
  ∀ (a b d : Reg) (s : State), decode (wordRRR a b d 4) = .slt a b d ∧
    ∃ t, exec (.slt a b d) s = .next t ∧
      OnlyRegister s t d (if (s.readReg a).toNat < (s.readReg b).toNat then 1 else 0) ∧
      NextWord s t ∧ SameMemory s t ∧ SameRun s t ∧ NoReport s t

/-- R103, R125 under `UNDEF_FUNC = nop`, the spec's choice (D6, notes/assumptions/3.md): the ten unnamed function codes
only advance the pc. -/
def Obligations.UnnamedFunctionsAreNoOps : Prop :=
  ∀ (a b d : Reg) (s : State), s.params.undefFunc = .nop →
    ∃ t, NextWord s t ∧ SameRegisters s t ∧ SameMemory s t ∧ SameRun s t ∧ NoReport s t ∧
      exec (.op0Func5 a b d) s = .next t ∧ exec (.op0Func6 a b d) s = .next t ∧
      exec (.op0Func7 a b d) s = .next t ∧ exec (.op0Func9 a b d) s = .next t ∧
      exec (.op0Func10 a b d) s = .next t ∧ exec (.op0Func11 a b d) s = .next t ∧
      exec (.op0Func12 a b d) s = .next t ∧ exec (.op0Func13 a b d) s = .next t ∧
      exec (.op0Func14 a b d) s = .next t ∧ exec (.op0Func15 a b d) s = .next t

/-- R103, R125 under `UNDEF_FUNC = refuse` (D6, notes/assumptions/3.md): the ten unnamed function codes are refused by
name, whatever `dst` is (for `dst = 0`, notes/assumptions/4.md). -/
def Obligations.UnnamedFunctionsRefusedUnderRefuse : Prop :=
  ∀ (a b d : Reg) (s : State), s.params.undefFunc = .refuse →
    exec (.op0Func5 a b d) s = .refused (.unnamedFunction 5) ∧
    exec (.op0Func6 a b d) s = .refused (.unnamedFunction 6) ∧
    exec (.op0Func7 a b d) s = .refused (.unnamedFunction 7) ∧
    exec (.op0Func9 a b d) s = .refused (.unnamedFunction 9) ∧
    exec (.op0Func10 a b d) s = .refused (.unnamedFunction 10) ∧
    exec (.op0Func11 a b d) s = .refused (.unnamedFunction 11) ∧
    exec (.op0Func12 a b d) s = .refused (.unnamedFunction 12) ∧
    exec (.op0Func13 a b d) s = .refused (.unnamedFunction 13) ∧
    exec (.op0Func14 a b d) s = .refused (.unnamedFunction 14) ∧
    exec (.op0Func15 a b d) s = .refused (.unnamedFunction 15)

/-- R140 with D5 (notes/assumptions/7.md): `jr` goes to the low 13 bits of its register. -/
def Obligations.JrJumpsToLow13Bits : Prop :=
  ∀ (a : Reg) (g : BitVec 6) (s : State),
    decode (BitVec.ofNat 16 (a.val * 1024 + g.toNat * 16 + 8)) = .jr a g ∧
    ∃ t, exec (.jr a g) s = .next t ∧ t.pc.toNat = (s.readReg a).toNat % 8192 ∧
      SameRegisters s t ∧ SameMemory s t ∧ SameRun s t ∧ NoReport s t

/-! ### The other opcodes -/

/-- R126, for every 7-bit immediate field `k`. -/
def Obligations.AddiAddsSignedImmediate : Prop :=
  ∀ (a d : Reg) (k : Nat) (s : State), k < 128 →
    decode (wordRRI 1 a d k) = .addi a d (simm7Of k) ∧
    ∃ t, exec (.addi a d (simm7Of k)) s = .next t ∧
      OnlyRegister s t d (((s.readReg a).toNat + simm7Of k) % 65536) ∧
      NextWord s t ∧ SameMemory s t ∧ SameRun s t ∧ NoReport s t

/-- R107: `movi`, the form of `addi` with source register 0, in a state where register 0 reads 0 (`Inv`). -/
def Obligations.MoviSetsTheRegister : Prop :=
  ∀ (d : Reg) (k : Nat) (s : State), k < 128 → Inv s →
    ∃ t, exec (decode (wordRRI 1 0 d k)) s = .next t ∧ OnlyRegister s t d (simm7Of k % 65536)

/-- R127, for every 7-bit immediate field `k` and both values of `SLTI_IMM`: the comparison is unsigned. -/
def Obligations.SltiComparesUnsigned : Prop :=
  ∀ (a d : Reg) (k : Nat) (s : State), k < 128 →
    decode (wordRRI 7 a d k) = .slti a d (BitVec.ofNat 7 k) ∧
    ∃ t, exec (.slti a d (BitVec.ofNat 7 k)) s = .next t ∧
      OnlyRegister s t d
        (if ((s.readReg a).toNat : Int) <
            (match s.params.sltiImm with
             | .sext => simm7Of k % 65536
             | .zext => (k : Int)) then 1 else 0) ∧
      NextWord s t ∧ SameMemory s t ∧ SameRun s t ∧ NoReport s t

/-- R141: a `j` to its own address halts and changes nothing else; any other `j` only sets the pc. -/
def Obligations.JumpOrHalt : Prop :=
  ∀ (target : Addr) (s : State), decode (wordJ 2 target) = .j target ∧
    (target = s.pc → ∃ t, exec (.j target) s = .next t ∧ t.halted = true ∧ t.pc = s.pc ∧
      SameRegisters s t ∧ SameMemory s t ∧ NoReport s t ∧ t.params = s.params ∧ t.summaries = s.summaries) ∧
    (target ≠ s.pc → ∃ t, exec (.j target) s = .next t ∧ t.pc = target ∧
      SameRegisters s t ∧ SameMemory s t ∧ SameRun s t ∧ NoReport s t)

/-- R142: the link register gets `pc + 1` modulo 8192. -/
def Obligations.JalLinksAndJumps : Prop :=
  ∀ (target : Addr) (s : State), decode (wordJ 3 target) = .jal target ∧
    ∃ t, exec (.jal target) s = .next t ∧ t.pc = target ∧
      OnlyRegister s t 7 ((s.pc.toNat + 1 : Int) % 8192) ∧
      SameMemory s t ∧ SameRun s t ∧ NoReport s t

/-- R145: `jr $7` after a `jal` returns to the word after it. -/
def Obligations.JrReturnsFromJal : Prop :=
  ∀ (target : Addr) (g : BitVec 6) (s t : State), exec (.jal target) s = .next t →
    ∃ u, exec (.jr 7 g) t = .next u ∧ NextWord s u

/-- R143, for every 7-bit field `k`: the full 16-bit values are compared. -/
def Obligations.JeqBranchesOnEqual : Prop :=
  ∀ (a b : Reg) (k : Nat) (s : State), k < 128 →
    decode (wordRRI 6 a b k) = .jeq a b (simm7Of k) ∧
    ∃ t, exec (.jeq a b (simm7Of k)) s = .next t ∧
      (t.pc.toNat : Int) =
        (if (s.readReg a).toNat = (s.readReg b).toNat then (s.pc.toNat + 1 + simm7Of k) % 8192
         else (s.pc.toNat + 1) % 8192) ∧
      SameRegisters s t ∧ SameMemory s t ∧ SameRun s t ∧ NoReport s t

/-- R160: the effective address is the sum modulo 8192, and the low 13 bits of the 16-bit sum. -/
def Obligations.EffectiveAddressWraps : Prop :=
  ∀ (s : State) (b : Reg) (imm : Int),
    ((effectiveAddress s b imm).toNat : Int) = ((s.readReg b).toNat + imm) % 8192 ∧
    ((effectiveAddress s b imm).toNat : Int) = (((s.readReg b).toNat + imm) % 65536) % 8192

/-- R161, for every 7-bit immediate field `k`: with `dst = 0` the load is elided, report and all. -/
def Obligations.LwLoadsAndReports : Prop :=
  ∀ (b d : Reg) (k : Nat) (s : State), k < 128 →
    decode (wordRRI 4 b d k) = .lw b d (simm7Of k) ∧
    ((effectiveAddress s b (simm7Of k)).toNat : Int) = ((s.readReg b).toNat + simm7Of k) % 8192 ∧
    ∃ t, exec (.lw b d (simm7Of k)) s = .next t ∧
      OnlyRegister s t d (s.mem.read (effectiveAddress s b (simm7Of k))).toNat ∧
      NextWord s t ∧ SameMemory s t ∧ SameRun s t ∧
      (d = 0 → NoReport s t) ∧
      (d ≠ 0 → OneReport s t { effAddr := effectiveAddress s b (simm7Of k), kind := .load, pc := s.pc })

/-- R162, for every 7-bit immediate field `k`: exactly the addressed word changes, and the access is reported whatever
`srcReg` is. -/
def Obligations.SwStoresAndReports : Prop :=
  ∀ (b r : Reg) (k : Nat) (s : State), k < 128 →
    decode (wordRRI 5 b r k) = .sw b r (simm7Of k) ∧
    ((effectiveAddress s b (simm7Of k)).toNat : Int) = ((s.readReg b).toNat + simm7Of k) % 8192 ∧
    ∃ t, exec (.sw b r (simm7Of k)) s = .next t ∧
      t.mem.read (effectiveAddress s b (simm7Of k)) = s.readReg r ∧
      (∀ a, a ≠ effectiveAddress s b (simm7Of k) → t.mem.read a = s.mem.read a) ∧
      NextWord s t ∧ SameRegisters s t ∧ SameRun s t ∧
      OneReport s t { effAddr := effectiveAddress s b (simm7Of k), kind := .store, pc := s.pc }

/-! ### Memory -/

/-- R52, R61: after any stores in order, a read gives the latest store to its address, or what was there before. -/
def Obligations.LatestStoreWins : Prop :=
  ∀ (m : Memory) (stores : List (Addr × Word)) (a : Addr),
    (stores.foldl (fun m p => m.write p.1 p.2) m).read a =
      ((stores.reverse.find? (fun p => p.1 == a)).map Prod.snd).getD (m.read a)

/-- Two canonical memories that read alike everywhere are the same data (the model's form, notes/assumptions/1.md). -/
def Obligations.CanonicalMemoriesAreData : Prop :=
  ∀ m m' : Memory, m.wf = true → m'.wf = true → (∀ a, m.read a = m'.read a) → m = m'

/-- R63, R212: a store to the next instruction's address changes the next step; a store to its own address does not
change the instruction in progress. -/
def Obligations.StoredWordIsExecutedNext : Prop :=
  ∀ (s : State) (b r : Reg) (imm : Int), s.halted = false → decode (s.mem.read s.pc) = .sw b r imm →
    ∃ t, step s = .next t ∧ NextWord s t ∧ t.mem.read (effectiveAddress s b imm) = s.readReg r ∧
      (effectiveAddress s b imm = t.pc → step t = exec (decode (s.readReg r)) t) ∧
      (effectiveAddress s b imm ≠ t.pc → step t = exec (decode (s.mem.read t.pc)) t)

/-! ### The cache hierarchy -/

/-- R66: row and tag of an address at a legal level; the addresses of one block share them. -/
def Obligations.AddressSplit : Prop :=
  ∀ (c : LevelConfig) (a b : Addr), LegalLevel c →
    rowOf c a = a.toNat / c.blockSize % numRows c ∧
    tagOf c a = a.toNat / c.blockSize / numRows c ∧
    rowOf c a < numRows c ∧
    tagOf c a ≤ 8191 / (c.blockSize * numRows c) ∧
    (a.toNat / c.blockSize = b.toNat / c.blockSize → rowOf c a = rowOf c b ∧ tagOf c a = tagOf c b) ∧
    (rowOf c a = rowOf c b → tagOf c a = tagOf c b → a.toNat / c.blockSize = b.toNat / c.blockSize)

/-- R68: a hit moves the tag to the most recently used end; the others keep their order and nothing is evicted. -/
def Obligations.HitMovesTagToTail : Prop :=
  ∀ (assoc t : Nat) (older newer : List Nat), t ∉ older →
    TagSet.touch assoc (older ++ t :: newer) t = older ++ newer ++ [t]

/-- R69: a miss inserts the tag at the most recently used end; only a full set evicts, and only its head. -/
def Obligations.MissInsertsAndEvictsHead : Prop :=
  ∀ (assoc t : Nat) (s : TagSet), t ∉ s →
    (s.length = assoc → ∀ head rest, s = head :: rest → TagSet.touch assoc s t = rest ++ [t]) ∧
    (s.length < assoc → TagSet.touch assoc s t = s ++ [t])

/-- R67: an access touches one row of the level, hits if and only if the tag is in it, and updates it alike for loads
and stores. -/
def Obligations.CacheAccessTouchesOneRow : Prop :=
  ∀ (l : CacheLevel) (a : Addr), LevelWf l →
    (l.hit a = true ↔ tagOf l.cfg a ∈ l.tagSet (rowOf l.cfg a)) ∧
    (l.touch a).tagSet (rowOf l.cfg a) =
      (if tagOf l.cfg a ∈ l.tagSet (rowOf l.cfg a) then
         (l.tagSet (rowOf l.cfg a)).erase (tagOf l.cfg a) ++ [tagOf l.cfg a]
       else if (l.tagSet (rowOf l.cfg a)).length = l.cfg.assoc then
         (l.tagSet (rowOf l.cfg a)).tail ++ [tagOf l.cfg a]
       else l.tagSet (rowOf l.cfg a) ++ [tagOf l.cfg a]) ∧
    (∀ row, row ≠ rowOf l.cfg a → (l.touch a).tagSet row = l.tagSet row) ∧
    (l.touch a).cfg = l.cfg

/-- R70 to R74: what each configuration logs for an access, and which levels it updates. The order of the two records
is the spec's choice D11 (notes/assumptions/10.md); that each level evicts on its own and never touches the other is
its choices D12 to D14 (notes/assumptions/11.md). -/
def Obligations.ObserveByConfiguration : Prop :=
  ∀ (l1 l2 : CacheLevel) (a p : Addr),
    (∀ kind, CacheHierarchy.observe .none ⟨a, kind, p⟩ = (.none, [])) ∧
    CacheHierarchy.observe (.one l1) ⟨a, .store, p⟩ = (.one (l1.touch a), [⟨.L1, .SW, p, a, rowOf l1.cfg a⟩]) ∧
    (l1.hit a = true →
      CacheHierarchy.observe (.one l1) ⟨a, .load, p⟩ = (.one (l1.touch a), [⟨.L1, .HIT, p, a, rowOf l1.cfg a⟩]) ∧
      CacheHierarchy.observe (.two l1 l2) ⟨a, .load, p⟩ =
        (.two (l1.touch a) l2, [⟨.L1, .HIT, p, a, rowOf l1.cfg a⟩])) ∧
    (l1.hit a = false →
      CacheHierarchy.observe (.one l1) ⟨a, .load, p⟩ = (.one (l1.touch a), [⟨.L1, .MISS, p, a, rowOf l1.cfg a⟩]) ∧
      CacheHierarchy.observe (.two l1 l2) ⟨a, .load, p⟩ =
        (.two (l1.touch a) (l2.touch a),
          [⟨.L1, .MISS, p, a, rowOf l1.cfg a⟩,
           ⟨.L2, if l2.hit a then .HIT else .MISS, p, a, rowOf l2.cfg a⟩])) ∧
    CacheHierarchy.observe (.two l1 l2) ⟨a, .store, p⟩ =
      (.two (l1.touch a) (l2.touch a),
        [⟨.L1, .SW, p, a, rowOf l1.cfg a⟩, ⟨.L2, .SW, p, a, rowOf l2.cfg a⟩])

/-- R79: under distinct tags with no hits, a Tag Set of associativity N evicts in the order of insertion; of
associativity 1, every miss to a full row replaces its one tag. -/
def Obligations.RecencyIsFifoWithoutHits : Prop :=
  (∀ (assoc : Nat) (tags : List Nat), 0 < assoc → tags.Nodup →
    tags.foldl (TagSet.touch assoc) [] = tags.drop (tags.length - assoc)) ∧
  (∀ t u : Nat, t ≠ u → TagSet.touch 1 [u] t = [t])

/-- R79: after a hit on a tag of a full set, the tag survives any N - 1 further misses and is evicted by the N-th. -/
def Obligations.HitTagIsEvictedLast : Prop :=
  ∀ (assoc t : Nat) (s : TagSet) (misses : List Nat), s.Nodup → s.length = assoc → t ∈ s →
    misses.Nodup → (∀ m ∈ misses, m ∉ s) →
    (misses.length < assoc → t ∈ misses.foldl (TagSet.touch assoc) (TagSet.touch assoc s t)) ∧
    (misses.length = assoc → t ∉ misses.foldl (TagSet.touch assoc) (TagSet.touch assoc s t))

/-- R60, R163: the accesses an instruction reports are exactly those the rules give, and the hierarchy has processed
them whole when the step ends. -/
def Obligations.InstructionReportsItsAccesses : Prop :=
  ∀ (i : Instr) (s t : State), exec i s = .next t →
    t.accesses = s.accesses ++ reportsOf i s ∧
    t.caches = (s.caches.observeAll (reportsOf i s)).1 ∧
    t.trace = s.trace ++ (s.caches.observeAll (reportsOf i s)).2

/-- R76 as an invariant: that what the hierarchy holds and has logged is its account, from cold, of the accesses reported
so far in program order is kept by every step from every state, so it holds along every run from reset. The cold start
is the spec's choice D8 (notes/assumptions/8.md), the order within one access D11 (notes/assumptions/10.md). -/
def Obligations.TraceIsTheAccessesObserved : Prop :=
  (∀ s t : State, s.caches.cold.observeAll s.accesses = (s.caches, s.trace) → step s = .next t →
    t.caches.cold = s.caches.cold ∧ t.caches.cold.observeAll t.accesses = (t.caches, t.trace)) ∧
  (∀ (init : MemInit) (params : RunParams) (file : List String) (args : List Int) (s t : State),
    boot init params file args = .ok s → Reaches s t →
    s.caches = t.caches.cold ∧ t.caches.cold.observeAll t.accesses = (t.caches, t.trace))

/-- R80: two machines alike but for their cache hierarchies go through the same engine states, step by step, and stop
for the same reason; in particular for the same image under any two cache configurations. -/
def Obligations.CachesNeverChangeTheEngine : Prop :=
  (∀ (s s' : State) (n : Nat), s.engine = s'.engine → s.params = s'.params →
    engineOutcome (runSteps n s) = engineOutcome (runSteps n s')) ∧
  (∀ (init : MemInit) (params : RunParams) (file : List String) (args args' : List Int) (s s' : State) (n : Nat),
    boot init params file args = .ok s → boot init params file args' = .ok s' →
    engineOutcome (runSteps n s) = engineOutcome (runSteps n s'))

/-! ### The whole machine -/

/-- R205: a step of a running machine fetches at the pc, decodes and executes; a halted machine has no step. -/
def Obligations.StepFetchesDecodesExecutes : Prop :=
  ∀ s : State,
    (s.halted = false → step s = exec (decode (s.mem.read s.pc)) s) ∧
    (∀ i : Instr, s.halted = false → i.wellFormed = true → decode (s.mem.read s.pc) = i → step s = exec i s) ∧
    (s.halted = true → ∀ t, step s ≠ .next t)

/-- R189, D17: a halted machine stops by the fault named for it (notes/assumptions/14.md). -/
def Obligations.HaltedMachineFaultsByName : Prop := ∀ s : State, s.halted = true → step s = .fault .halted

/-- R180: a running engine never faults; with `UNDEF_FUNC = nop` every step answers a next state. -/
def Obligations.RunningEngineNeverFaults : Prop :=
  ∀ s : State, s.halted = false →
    (∀ f, step s ≠ .fault f) ∧ (s.params.undefFunc = .nop → ∃ t, step s = .next t)

/-- R189, R190: with `UNDEF_FUNC = nop` a run ends in a halted state or not at all. -/
def Obligations.RunsEndOnlyByHalt : Prop :=
  ∀ s t : State, s.params.undefFunc = .nop → Reaches s t → t.halted = true ∨ ∃ u, step t = .next u

/-- R22, R31 to R34: every step keeps the invariant. -/
def Obligations.StepKeepsInvariant : Prop := ∀ s t : State, Inv s → step s = .next t → Inv t

/-- The invariant holds at `State.reset`. -/
def Obligations.ResetMeetsInvariant : Prop := Inv State.reset

/-- Every reset that loads gives a state that meets the invariant. -/
def Obligations.BootMeetsInvariant : Prop :=
  ∀ (init : MemInit) (params : RunParams) (file : List String) (args : List Int) (s : State),
    boot init params file args = .ok s → Inv s

/-- R22: no instruction writes register 0, so along every run from reset it reads 0; an instruction with destination 0
writes no register and advances the pc. -/
def Obligations.RegisterZeroIsNeverWritten : Prop :=
  (∀ (i : Instr) (s t : State), exec i s = .next t → t.readReg 0 = s.readReg 0) ∧
  (∀ (init : MemInit) (params : RunParams) (file : List String) (args : List Int) (s t : State),
    boot init params file args = .ok s → Reaches s t → t.readReg 0 = 0) ∧
  (∀ (a b : Reg) (imm : Int) (v : BitVec 7) (s : State),
    ∀ i ∈ [Instr.add a b 0, .sub a b 0, .or a b 0, .and a b 0, .slt a b 0, .addi a 0 imm, .slti a 0 v, .lw a 0 imm],
      ∃ t, exec i s = .next t ∧ SameRegisters s t ∧ NextWord s t)

/-- R29, R146: the halt flag is false at reset, only a `j` to its own address sets it, nothing clears it, no instruction
reads it, and when it is true there is no further step. -/
def Obligations.OnlySelfJumpHalts : Prop :=
  (∀ (i : Instr) (s t : State), exec i s = .next t →
    (t.halted = true ↔ s.halted = true ∨ ∃ target, i = .j target ∧ target = s.pc)) ∧
  (∀ (i : Instr) (s t : State) (b : Bool), exec i s = .next t →
    exec i { s with halted := b } = .next { t with halted := b || isSelfJump i s }) ∧
  (∀ (init : MemInit) (params : RunParams) (file : List String) (args : List Int) (s : State),
    boot init params file args = .ok s → s.halted = false) ∧
  (∀ s t : State, s.halted = true → step s ≠ .next t)

/-- R24, R53: only `sw` changes memory, and at one word. -/
def Obligations.OnlySwChangesMemory : Prop :=
  ∀ (i : Instr) (s t : State) (a : Addr), exec i s = .next t → t.mem.read a ≠ s.mem.read a →
    ∃ b r imm, i = .sw b r imm ∧ a = effectiveAddress s b imm ∧ t.mem.read a = s.readReg r

/-- R14, R34 and R8 along a run: the cache configuration and the parameters are fixed for the lifetime of a run. -/
def Obligations.ConfigurationIsFixedForTheRun : Prop :=
  ∀ s t : State, Reaches s t →
    t.caches.configs = s.caches.configs ∧ t.params = s.params ∧ t.summaries = s.summaries

/-! ### Reset, load and report -/

/-- R37 at `State.reset`. Zero memory, pc 0, no cache, and the parameters' values are choices: notes/assumptions/2.md,
3.md, 5.md, 6.md and 12.md. -/
def Obligations.ResetValues : Prop :=
  State.reset.pc = 0 ∧ State.reset.halted = false ∧ (∀ r, State.reset.readReg r = 0) ∧
  (∀ a, State.reset.mem.read a = 0) ∧ State.reset.mem = [] ∧ State.reset.caches = .none ∧
  State.reset.params = { undefFunc := .nop, sltiImm := .sext } ∧
  State.reset.accesses = [] ∧ State.reset.trace = [] ∧ State.reset.summaries = []

/-- R37, R200: what reset leaves for any arguments. The words past the image, the pc and the empty Tag Sets are choices:
notes/assumptions/2.md, 6.md and 8.md. -/
def Obligations.BootGivesTheResetState : Prop :=
  ∀ (init : MemInit) (params : RunParams) (file : List String) (args : List Int) (s : State),
    boot init params file args = .ok s →
    ∃ image : List Word, loadLines 0 file = .ok image ∧ checkCacheArgs args = .ok s.caches ∧
      s.pc = 0 ∧ s.halted = false ∧ (∀ r, s.readReg r = 0) ∧
      (∀ a : Addr, s.mem.read a =
        match image[a.toNat]? with
        | some w => w
        | none =>
          match init with
          | .zero => 0
          | .arbitrary draw => draw.getD a.toNat 0) ∧
      s.caches = s.caches.cold ∧ s.params = params ∧ s.accesses = [] ∧ s.trace = []

/-- R201 to R203 (syntax and digit order by D2 and D15, notes/assumptions/15.md and 20.md): a line loads exactly when it
has the form, and then gives the values of its two numerals. -/
def Obligations.LineFormIsExact : Prop :=
  ∀ (line : List Char) (a : Nat) (w : Word),
    parseLine line = some (a, w) ↔
      ∃ ds bs : List Char,
        line = ['r', 'a', 'm', '['] ++ ds ++ [']', ' ', '=', ' ', '1', '6', '\'', 'b'] ++ bs ++ [';'] ∧
        ds ≠ [] ∧ (∀ c ∈ ds, c ∈ ['0', '1', '2', '3', '4', '5', '6', '7', '8', '9']) ∧
        bs.length = 16 ∧ (∀ c ∈ bs, c = '0' ∨ c = '1') ∧
        a = numeral 10 ds ∧
        ∀ k (h : k < bs.length), w.getLsbD (15 - k) = decide (bs[k] = '1')

/-- R201, R204: a file loads an image exactly when line `i` carries address `i` for every line and it fits in memory.
That a file of no lines loads the empty image is the spec's choice D16 (notes/assumptions/17.md). -/
def Obligations.FileLoadsInAddressOrder : Prop :=
  ∀ (file : List String) (image : List Word),
    loadLines 0 file = .ok image ↔
      image.length = file.length ∧ file.length ≤ 8192 ∧
      ∀ i (h : i < file.length) (h' : i < image.length), parseLine file[i].toList = some (i, image[i])

/-- R181, R183, R204: the first bad line decides the error, for lines numbered from any `i`. That the first bad line in
file order decides is the spec's choice D23 (notes/assumptions/18.md); checking the sequence before the size is the
model's choice (notes/assumptions/16.md). -/
def Obligations.FirstBadLineDecides : Prop :=
  ∀ (i : Nat) (good rest : List String) (bad : String) (image : List Word), loadLines i good = .ok image →
    (parseLine bad.toList = none →
      loadLines i (good ++ bad :: rest) = .error (.malformedInputLine bad)) ∧
    (∀ a w, parseLine bad.toList = some (a, w) → a ≠ i + good.length →
      loadLines i (good ++ bad :: rest) = .error (.addressSequenceError bad)) ∧
    (∀ w, parseLine bad.toList = some (i + good.length, w) → 8192 ≤ i + good.length →
      loadLines i (good ++ bad :: rest) = .error (.programTooLarge bad))

/-- R65 (legal values by D10, notes/assumptions/9.md): 0, 3 or 6 arguments with legal triples configure the hierarchy,
cold; anything else is `InvalidCacheConfiguration`. -/
def Obligations.CacheArgumentsAreChecked : Prop :=
  (∀ (args : List Int) (h : CacheHierarchy), checkCacheArgs args = .ok h ↔
    (args = [] ∧ h = .none) ∨
    (∃ c, LegalLevel c ∧ args = [(c.size : Int), c.assoc, c.blockSize] ∧ h = .one (coldLevel c)) ∨
    (∃ c c', LegalLevel c ∧ LegalLevel c' ∧
      args = [(c.size : Int), c.assoc, c.blockSize, c'.size, c'.assoc, c'.blockSize] ∧
      h = .two (coldLevel c) (coldLevel c'))) ∧
  (∀ (args : List Int) (e : BootError), checkCacheArgs args = .error e → e = .invalidCacheConfiguration args)

/-- R182, R183 (D23, notes/assumptions/18.md): a loader error goes before a configuration error, and with either no run
starts. -/
def Obligations.LoaderErrorGoesFirst : Prop :=
  ∀ (init : MemInit) (params : RunParams) (file : List String) (args : List Int),
    (∀ e, loadLines 0 file = .error e → boot init params file args = .error e) ∧
    (∀ image e, loadLines 0 file = .ok image → checkCacheArgs args = .error e →
      boot init params file args = .error (.invalidCacheConfiguration args))

/-- R77 (order by D11, notes/assumptions/10.md): the summary records of a run are one per configured level, L1's first. -/
def Obligations.SummariesOneForEachLevel : Prop :=
  ∀ (init : MemInit) (params : RunParams) (file : List String) (args : List Int) (s t : State),
    boot init params file args = .ok s → Reaches s t →
    t.summaries =
      match s.caches with
      | .none => []
      | .one l1 =>
        [⟨.L1, l1.cfg.size, l1.cfg.assoc, l1.cfg.blockSize, l1.cfg.size / (l1.cfg.blockSize * l1.cfg.assoc)⟩]
      | .two l1 l2 =>
        [⟨.L1, l1.cfg.size, l1.cfg.assoc, l1.cfg.blockSize, l1.cfg.size / (l1.cfg.blockSize * l1.cfg.assoc)⟩,
         ⟨.L2, l2.cfg.size, l2.cfg.assoc, l2.cfg.blockSize, l2.cfg.size / (l2.cfg.blockSize * l2.cfg.assoc)⟩]

/-- R17, R209: the report of a halted machine holds its pc, its registers and its first 128 words; a machine that has
not halted has none (R208). -/
def Obligations.ReportOnlyAfterHalt : Prop :=
  ∀ s : State,
    (s.halted = true → ∃ r, finalReport s = some r ∧ r.pc = s.pc ∧ (∀ q : Reg, r.x.get q = s.readReg q) ∧
      r.words.length = 128 ∧ ∀ a : Addr, a.toNat < 128 → r.words[a.toNat]? = some (s.mem.read a)) ∧
    (s.halted = false → finalReport s = none)
end

