-- ==== Sys2Proof/Laws/State.lean ====
section
/-! SUPPORT. What each update of the state leaves in each field. -/

namespace Sys2Proof.Machine

@[simp] theorem State.setPc_pc (s : State) (t : Addr) : (s.setPc t).pc = t := rfl
@[simp] theorem State.setPc_x (s : State) (t : Addr) : (s.setPc t).x = s.x := rfl
@[simp] theorem State.setPc_mem (s : State) (t : Addr) : (s.setPc t).mem = s.mem := rfl
@[simp] theorem State.setPc_halted (s : State) (t : Addr) : (s.setPc t).halted = s.halted := rfl
@[simp] theorem State.setPc_caches (s : State) (t : Addr) : (s.setPc t).caches = s.caches := rfl
@[simp] theorem State.setPc_params (s : State) (t : Addr) : (s.setPc t).params = s.params := rfl
@[simp] theorem State.setPc_accesses (s : State) (t : Addr) : (s.setPc t).accesses = s.accesses := rfl
@[simp] theorem State.setPc_trace (s : State) (t : Addr) : (s.setPc t).trace = s.trace := rfl
@[simp] theorem State.setPc_summaries (s : State) (t : Addr) : (s.setPc t).summaries = s.summaries := rfl

@[simp] theorem State.advance_pc (s : State) : (s.advance).pc = s.pc + 1 := rfl
@[simp] theorem State.advance_x (s : State) : (s.advance).x = s.x := rfl
@[simp] theorem State.advance_mem (s : State) : (s.advance).mem = s.mem := rfl
@[simp] theorem State.advance_halted (s : State) : (s.advance).halted = s.halted := rfl
@[simp] theorem State.advance_caches (s : State) : (s.advance).caches = s.caches := rfl
@[simp] theorem State.advance_params (s : State) : (s.advance).params = s.params := rfl
@[simp] theorem State.advance_accesses (s : State) : (s.advance).accesses = s.accesses := rfl
@[simp] theorem State.advance_trace (s : State) : (s.advance).trace = s.trace := rfl
@[simp] theorem State.advance_summaries (s : State) : (s.advance).summaries = s.summaries := rfl

@[simp] theorem State.halt_pc (s : State) : (s.halt).pc = s.pc := rfl
@[simp] theorem State.halt_x (s : State) : (s.halt).x = s.x := rfl
@[simp] theorem State.halt_mem (s : State) : (s.halt).mem = s.mem := rfl
@[simp] theorem State.halt_halted (s : State) : (s.halt).halted = true := rfl
@[simp] theorem State.halt_caches (s : State) : (s.halt).caches = s.caches := rfl
@[simp] theorem State.halt_params (s : State) : (s.halt).params = s.params := rfl
@[simp] theorem State.halt_accesses (s : State) : (s.halt).accesses = s.accesses := rfl
@[simp] theorem State.halt_trace (s : State) : (s.halt).trace = s.trace := rfl
@[simp] theorem State.halt_summaries (s : State) : (s.halt).summaries = s.summaries := rfl

@[simp] theorem State.store_pc (s : State) (a : Addr) (v : Word) : (s.store a v).pc = s.pc := rfl
@[simp] theorem State.store_x (s : State) (a : Addr) (v : Word) : (s.store a v).x = s.x := rfl
@[simp] theorem State.store_mem (s : State) (a : Addr) (v : Word) : (s.store a v).mem = s.mem.write a v := rfl
@[simp] theorem State.store_halted (s : State) (a : Addr) (v : Word) : (s.store a v).halted = s.halted := rfl
@[simp] theorem State.store_caches (s : State) (a : Addr) (v : Word) : (s.store a v).caches = s.caches := rfl
@[simp] theorem State.store_params (s : State) (a : Addr) (v : Word) : (s.store a v).params = s.params := rfl
@[simp] theorem State.store_accesses (s : State) (a : Addr) (v : Word) : (s.store a v).accesses = s.accesses := rfl
@[simp] theorem State.store_trace (s : State) (a : Addr) (v : Word) : (s.store a v).trace = s.trace := rfl
@[simp] theorem State.store_summaries (s : State) (a : Addr) (v : Word) : (s.store a v).summaries = s.summaries := rfl

@[simp] theorem State.report_pc (s : State) (a : Addr) (k : AccessKind) : (s.report a k).pc = s.pc := rfl
@[simp] theorem State.report_x (s : State) (a : Addr) (k : AccessKind) : (s.report a k).x = s.x := rfl
@[simp] theorem State.report_mem (s : State) (a : Addr) (k : AccessKind) : (s.report a k).mem = s.mem := rfl
@[simp] theorem State.report_halted (s : State) (a : Addr) (k : AccessKind) : (s.report a k).halted = s.halted := rfl
@[simp] theorem State.report_caches (s : State) (a : Addr) (k : AccessKind) : (s.report a k).caches = (s.caches.observe ⟨a, k, s.pc⟩).1 := rfl
@[simp] theorem State.report_params (s : State) (a : Addr) (k : AccessKind) : (s.report a k).params = s.params := rfl
@[simp] theorem State.report_accesses (s : State) (a : Addr) (k : AccessKind) : (s.report a k).accesses = s.accesses ++ [⟨a, k, s.pc⟩] := rfl
@[simp] theorem State.report_trace (s : State) (a : Addr) (k : AccessKind) : (s.report a k).trace = s.trace ++ (s.caches.observe ⟨a, k, s.pc⟩).2 := rfl
@[simp] theorem State.report_summaries (s : State) (a : Addr) (k : AccessKind) : (s.report a k).summaries = s.summaries := rfl

@[simp] theorem State.writeReg_pc (s : State) (r : Reg) (v : Word) : (s.writeReg r v).pc = s.pc := by
  unfold State.writeReg; split <;> rfl
@[simp] theorem State.writeReg_mem (s : State) (r : Reg) (v : Word) : (s.writeReg r v).mem = s.mem := by
  unfold State.writeReg; split <;> rfl
@[simp] theorem State.writeReg_halted (s : State) (r : Reg) (v : Word) : (s.writeReg r v).halted = s.halted := by
  unfold State.writeReg; split <;> rfl
@[simp] theorem State.writeReg_caches (s : State) (r : Reg) (v : Word) : (s.writeReg r v).caches = s.caches := by
  unfold State.writeReg; split <;> rfl
@[simp] theorem State.writeReg_params (s : State) (r : Reg) (v : Word) : (s.writeReg r v).params = s.params := by
  unfold State.writeReg; split <;> rfl
@[simp] theorem State.writeReg_accesses (s : State) (r : Reg) (v : Word) : (s.writeReg r v).accesses = s.accesses := by
  unfold State.writeReg; split <;> rfl
@[simp] theorem State.writeReg_trace (s : State) (r : Reg) (v : Word) : (s.writeReg r v).trace = s.trace := by
  unfold State.writeReg; split <;> rfl
@[simp] theorem State.writeReg_summaries (s : State) (r : Reg) (v : Word) : (s.writeReg r v).summaries = s.summaries := by
  unfold State.writeReg; split <;> rfl

theorem State.writeReg_x (s : State) (r : Reg) (v : Word) :
    (s.writeReg r v).x = if r = 0 then s.x else s.x.set r.val v r.isLt := by
  unfold State.writeReg; split <;> rfl

@[simp] theorem State.writeReg_zero (s : State) (v : Word) : s.writeReg 0 v = s := rfl

/-- What reading a register gives after a register write. -/
theorem State.readReg_writeReg (s : State) (r q : Reg) (v : Word) :
    (s.writeReg r v).readReg q = if q = r ∧ r ≠ 0 then v else s.readReg q := by
  unfold State.readReg
  rw [State.writeReg_x]
  by_cases h0 : r = 0
  · simp [h0]
  · by_cases hq : q = r
    · subst hq; simp [h0, Vector.get_eq_getElem]
    · have : r.val ≠ q.val := fun h => hq (Fin.ext h.symm)
      simp [h0, hq, Vector.get_eq_getElem, this]

@[simp] theorem State.readReg_writeReg_same (s : State) (r : Reg) (v : Word) (h : r ≠ 0) :
    (s.writeReg r v).readReg r = v := by simp [State.readReg_writeReg, h]

@[simp] theorem State.readReg_writeReg_of_ne (s : State) (r q : Reg) (v : Word) (h : q ≠ r) :
    (s.writeReg r v).readReg q = s.readReg q := by simp [State.readReg_writeReg, h]

@[simp] theorem State.readReg_setPc (s : State) (t : Addr) (r : Reg) : (s.setPc t).readReg r = s.readReg r := rfl
@[simp] theorem State.readReg_advance (s : State) (r : Reg) : (s.advance).readReg r = s.readReg r := rfl
@[simp] theorem State.readReg_halt (s : State) (r : Reg) : (s.halt).readReg r = s.readReg r := rfl
@[simp] theorem State.readReg_store (s : State) (a : Addr) (v : Word) (r : Reg) : (s.store a v).readReg r = s.readReg r := rfl
@[simp] theorem State.readReg_report (s : State) (a : Addr) (k : AccessKind) (r : Reg) : (s.report a k).readReg r = s.readReg r := rfl

theorem State.load_report (s : State) (a b : Addr) (k : AccessKind) : (s.report a k).load b = s.load b := rfl

@[simp] theorem State.reset_mem : State.reset.mem = [] := rfl

@[simp] theorem State.reset_readReg (r : Reg) : State.reset.readReg r = 0 := by
  unfold State.readReg State.reset; simp [Vector.get_eq_getElem]

end Sys2Proof.Machine
end

