-- ==== Sys2Proof/Laws/Memory.lean ====
section
/-! SUPPORT. Reading after writing, and the canonical form that every memory operation keeps. -/

namespace Sys2Proof.Machine

/-- The cell of an address is found wherever the insertion put it. -/
theorem Memory.find?_insert (c : Cell) (m : Memory) (k : Nat) (hm : ∀ d ∈ m, d.1 ≠ c.1) :
    (Memory.insert c m).find? (fun d => d.1 == k) =
      if c.1 = k then some c else m.find? (fun d => d.1 == k) := by
  induction m with
  | nil => by_cases h : c.1 = k <;> simp [Memory.insert, h]
  | cons d m ih =>
    have ih := ih (fun e he => hm e (List.mem_cons_of_mem _ he))
    have hd : d.1 ≠ c.1 := hm d List.mem_cons_self
    unfold Memory.insert
    split
    · by_cases h : c.1 = k <;> simp [List.find?_cons, h]
    · rw [List.find?_cons, ih]
      by_cases hk : d.1 = k
      · have : c.1 ≠ k := fun h => hd (hk.trans h.symm)
        simp [hk, this]
      · have : (d.1 == k) = false := by simpa using hk
        simp [this]

theorem Memory.find?_filter_ne (m : Memory) (j k : Nat) :
    (m.filter (fun d => d.1 != j)).find? (fun d => d.1 == k) =
      if k = j then none else m.find? (fun d => d.1 == k) := by
  induction m with
  | nil => simp
  | cons d m ih =>
    by_cases hj : d.1 = j
    · have : (d.1 != j) = false := by simpa using hj
      rw [List.filter_cons_of_neg (by simpa using hj), ih]
      by_cases hk : k = j
      · simp [hk]
      · have : (d.1 == k) = false := by simp; omega
        simp [hk, this]
    · rw [List.filter_cons_of_pos (by simpa using hj), List.find?_cons, ih, List.find?_cons]
      by_cases hk : d.1 = k
      · have : k ≠ j := fun h => hj (hk.trans h)
        simp [hk, this]
      · have : (d.1 == k) = false := by simpa using hk
        simp [this]

/-- What a read gives after a write (R52), in every list of cells. -/
theorem Memory.read_write (m : Memory) (a b : Addr) (v : Word) :
    (m.write a v).read b = if b = a then v else m.read b := by
  have hne : b ≠ a → b.toNat ≠ a.toNat := fun h h' => h (BitVec.eq_of_toNat_eq h')
  unfold Memory.write Memory.read
  by_cases hv : v = unlistedWord
  · simp only [hv, if_true, Memory.find?_filter_ne]
    by_cases h : b = a
    · simp [h]
    · simp [h, hne h]
  · have hfree : ∀ d ∈ m.filter (fun c => c.1 != a.toNat), d.1 ≠ (a.toNat, v).1 := by
      intro d hd; simpa using (List.mem_filter.mp hd).2
    simp only [hv, if_false, Memory.find?_insert _ _ _ hfree, Memory.find?_filter_ne]
    by_cases h : b = a
    · simp [h]
    · have h1 : ¬ a.toNat = b.toNat := fun h' => hne h h'.symm
      simp [h, hne h, h1]

@[simp] theorem Memory.read_nil (a : Addr) : Memory.read [] a = 0 := rfl

theorem Memory.rising_iff_pairwise (m : Memory) :
    Memory.rising m = true ↔ m.Pairwise (fun c d => c.1 < d.1) := by
  induction m with
  | nil => simp [Memory.rising]
  | cons c m ih =>
    cases m with
    | nil => simp [Memory.rising]
    | cons d m =>
      simp only [Memory.rising, Bool.and_eq_true, decide_eq_true_eq, ih, List.pairwise_cons]
      constructor
      · rintro ⟨hcd, hd, hm⟩
        refine ⟨?_, hd, hm⟩
        intro e he
        rcases List.mem_cons.mp he with rfl | he
        · exact hcd
        · exact hcd.trans (hd e he)
      · rintro ⟨hc, hd, hm⟩
        exact ⟨hc d List.mem_cons_self, hd, hm⟩

/-- The canonical form as a statement about cells. -/
theorem Memory.wf_iff (m : Memory) :
    m.wf = true ↔
      m.Pairwise (fun c d => c.1 < d.1) ∧ ∀ c ∈ m, c.1 < memWords ∧ c.2 ≠ unlistedWord := by
  simp [Memory.wf, Memory.rising_iff_pairwise, List.all_eq_true]

theorem Memory.mem_insert (c d : Cell) (m : Memory) : d ∈ Memory.insert c m ↔ d = c ∨ d ∈ m := by
  induction m with
  | nil => simp [Memory.insert]
  | cons e m ih =>
    unfold Memory.insert
    split
    · simp
    · simp only [List.mem_cons, ih]; tauto

theorem Memory.pairwise_insert (c : Cell) (m : Memory) (hm : m.Pairwise (fun c d => c.1 < d.1))
    (hc : ∀ d ∈ m, d.1 ≠ c.1) : (Memory.insert c m).Pairwise (fun c d => c.1 < d.1) := by
  induction m with
  | nil => simp [Memory.insert]
  | cons e m ih =>
    obtain ⟨he, hm⟩ := List.pairwise_cons.mp hm
    unfold Memory.insert
    split
    · rename_i hlt
      refine List.pairwise_cons.mpr ⟨?_, List.pairwise_cons.mpr ⟨he, hm⟩⟩
      intro d hd
      rcases List.mem_cons.mp hd with rfl | hd
      · exact hlt
      · exact hlt.trans (he d hd)
    · rename_i hlt
      refine List.pairwise_cons.mpr ⟨?_, ih hm (fun d hd => hc d (List.mem_cons_of_mem _ hd))⟩
      intro d hd
      rcases (Memory.mem_insert c d m).mp hd with rfl | hd
      · have := hc e List.mem_cons_self; omega
      · exact he d hd

/-- Every write keeps the canonical form. -/
theorem Memory.write_wf (m : Memory) (a : Addr) (v : Word) (h : m.wf = true) : (m.write a v).wf = true := by
  rw [Memory.wf_iff] at h ⊢
  obtain ⟨hp, hv⟩ := h
  have hpf : (m.filter (fun c => c.1 != a.toNat)).Pairwise (fun c d => c.1 < d.1) := hp.filter _
  have hvf : ∀ c ∈ m.filter (fun c => c.1 != a.toNat), c.1 < memWords ∧ c.2 ≠ unlistedWord :=
    fun c hc => hv c (List.mem_filter.mp hc).1
  unfold Memory.write
  by_cases h0 : v = unlistedWord
  · simp only [h0, if_true]
    exact ⟨hpf, hvf⟩
  · simp only [h0, if_false]
    refine ⟨Memory.pairwise_insert _ _ hpf ?_, ?_⟩
    · intro d hd; simpa using (List.mem_filter.mp hd).2
    · intro c hc
      rcases (Memory.mem_insert _ _ _).mp hc with rfl | hc
      · exact ⟨by have := a.isLt; simp only [memWords]; omega, h0⟩
      · exact hvf c hc

theorem reset_memory_wf : State.reset.mem.wf = true := rfl

/-- What a load gives after a store. -/
theorem State.load_store (s : State) (a b : Addr) (v : Word) :
    (s.store a v).load b = if b = a then v else s.load b := Memory.read_write s.mem a b v

@[simp] theorem State.load_store_same (s : State) (a : Addr) (v : Word) : (s.store a v).load a = v := by
  simp [State.load_store]

@[simp] theorem State.load_store_of_ne (s : State) (a b : Addr) (v : Word) (h : b ≠ a) :
    (s.store a v).load b = s.load b := by simp [State.load_store, h]

/-- The word placed by `withFetchWord` is the word `step` fetches and runs. -/
theorem step_withFetchWord (s : State) (nbits w : Nat) :
    step (s.withFetchWord nbits w) =
      exec (decode (BitVec.ofNat 16 (w % 2 ^ nbits))) (s.withFetchWord nbits w) := by
  have hf : (s.withFetchWord nbits w).fetch = BitVec.ofNat 16 (w % 2 ^ nbits) :=
    State.load_store_same s s.pc _
  have hh : (s.withFetchWord nbits w).halted = false := rfl
  unfold step cycle
  rw [hh, hf]
  rfl

end Sys2Proof.Machine
end

