-- ==== Sys2Proof/Laws/Boot.lean ====
section
/-! SUPPORT. What a reset that succeeds gives, and the memory a load leaves. -/

namespace Sys2Proof.Machine

/-- Every state `boot` gives is the reset state of a loaded image and a checked configuration (R200). -/
theorem boot_ok {init : MemInit} {params : RunParams} {file : List String} {args : List Int} {s : State}
    (h : boot init params file args = .ok s) :
    ∃ image caches, loadLines 0 file = .ok image ∧ checkCacheArgs args = .ok caches ∧
      s = resetState init params image caches := by
  unfold boot at h
  split at h
  · cases h
  · rename_i image hi
    split at h
    · cases h
    · rename_i caches hc
      cases h
      exact ⟨image, caches, hi, hc, rfl⟩

/-- `State.reset` is the reset of an empty file, no cache arguments and the spec's choices (notes/assumptions/12.md). -/
theorem boot_empty : boot .zero RunParams.specChoice [] [] = .ok State.reset := rfl

/-- Loading words keeps the canonical form. -/
theorem loadWords_wf (ws : List Word) (b : Nat) (m : Memory) (h : m.wf = true) : (loadWords b ws m).wf = true := by
  induction ws generalizing b m with
  | nil => exact h
  | cons w ws ih => exact ih _ _ (Memory.write_wf _ _ _ h)

theorem initialMemory_wf (init : MemInit) : (initialMemory init).wf = true := by
  cases init with
  | zero => rfl
  | arbitrary draw => exact loadWords_wf _ _ _ rfl

/-- What a read gives after words are loaded from `b` on. -/
theorem loadWords_read (ws : List Word) (b : Nat) (m : Memory) (a : Addr) (h : b + ws.length ≤ memWords) :
    (loadWords b ws m).read a =
      if b ≤ a.toNat ∧ a.toNat < b + ws.length then ws.getD (a.toNat - b) 0 else m.read a := by
  simp only [memWords] at h
  induction ws generalizing b m with
  | nil =>
    simp [loadWords]
  | cons w ws ih =>
    simp only [List.length_cons] at h
    rw [loadWords, ih _ _ (by omega), Memory.read_write]
    have hb : a = BitVec.ofNat 13 b ↔ a.toNat = b := by
      constructor
      · rintro rfl; simp; omega
      · intro e; apply BitVec.eq_of_toNat_eq; simp; omega
    simp only [hb, List.length_cons]
    by_cases h1 : a.toNat = b
    · rw [if_neg (by omega), if_pos h1, if_pos (by omega)]; simp [h1]
    · by_cases h2 : b + 1 ≤ a.toNat ∧ a.toNat < b + 1 + ws.length
      · rw [if_pos h2, if_pos (by omega)]
        obtain ⟨k, hk⟩ : ∃ k, a.toNat - b = k + 1 := ⟨a.toNat - b - 1, by omega⟩
        rw [hk, List.getD_cons_succ]; congr 1; omega
      · rw [if_neg h2, if_neg h1, if_neg (by omega)]

end Sys2Proof.Machine
end

