-- ==== Sys2Proof/Laws/Cache.lean ====
section
/-! SUPPORT. What one access does to a Tag Set, a level and the hierarchy. -/

namespace Sys2Proof.Machine

/-- Every case of a Tag Set's lookup. -/
theorem TagSet.touch_cases (assoc : Nat) (s : TagSet) (t : Nat) :
    (t ∈ s ∧ TagSet.touch assoc s t = s.erase t ++ [t]) ∨
    (t ∉ s ∧ s.length = assoc ∧ TagSet.touch assoc s t = s.tail ++ [t]) ∨
    (t ∉ s ∧ s.length ≠ assoc ∧ TagSet.touch assoc s t = s ++ [t]) := by
  unfold TagSet.touch
  by_cases h : t ∈ s
  · exact .inl ⟨h, by simp [h]⟩
  · by_cases hl : s.length = assoc
    · exact .inr (.inl ⟨h, hl, by simp [h, hl]⟩)
    · exact .inr (.inr ⟨h, hl, by simp [h, hl]⟩)

theorem TagSet.mem_touch (assoc : Nat) (s : TagSet) (t : Nat) : t ∈ TagSet.touch assoc s t := by
  rcases TagSet.touch_cases assoc s t with ⟨-, h⟩ | ⟨-, -, h⟩ | ⟨-, -, h⟩ <;> simp [h]

@[simp] theorem CacheLevel.touch_cfg (l : CacheLevel) (a : Addr) : (l.touch a).cfg = l.cfg := rfl

@[simp] theorem CacheLevel.touch_rows_length (l : CacheLevel) (a : Addr) :
    (l.touch a).rows.length = l.rows.length := by simp [CacheLevel.touch]

/-- What an access leaves in each row of a level. -/
theorem CacheLevel.tagSet_touch (l : CacheLevel) (a : Addr) (r : Nat) (h : rowOf l.cfg a < l.rows.length) :
    (l.touch a).tagSet r =
      if r = rowOf l.cfg a then TagSet.touch l.cfg.assoc (l.tagSet r) (tagOf l.cfg a) else l.tagSet r := by
  unfold CacheLevel.touch CacheLevel.tagSet
  by_cases hr : r = rowOf l.cfg a
  · simp [hr, h]
  · have : rowOf l.cfg a ≠ r := fun h' => hr h'.symm
    simp [hr, this]

@[simp] theorem coldLevel_tagSet (c : LevelConfig) (r : Nat) : (coldLevel c).tagSet r = [] := by
  unfold CacheLevel.tagSet coldLevel
  by_cases h : r < numRows c <;> simp [List.getD, h]

/-- Every case of an access through the hierarchy. -/
theorem CacheHierarchy.observe_cases (h : CacheHierarchy) (acc : Access) :
    (h = .none ∧ h.observe acc = (.none, [])) ∨
    (∃ l1, h = .one l1 ∧ h.observe acc = (.one (l1.touch acc.effAddr), [l1.record .L1 acc])) ∨
    (∃ l1 l2, h = .two l1 l2 ∧ consultsL2 l1 acc = true ∧
      h.observe acc =
        (.two (l1.touch acc.effAddr) (l2.touch acc.effAddr), [l1.record .L1 acc, l2.record .L2 acc])) ∨
    (∃ l1 l2, h = .two l1 l2 ∧ consultsL2 l1 acc = false ∧
      h.observe acc = (.two (l1.touch acc.effAddr) l2, [l1.record .L1 acc])) := by
  cases h with
  | none => exact .inl ⟨rfl, rfl⟩
  | one l1 => exact .inr (.inl ⟨l1, rfl, rfl⟩)
  | two l1 l2 =>
    by_cases hc : consultsL2 l1 acc = true
    · exact .inr (.inr (.inl ⟨l1, l2, rfl, hc, by simp [CacheHierarchy.observe, hc]⟩))
    · have hc : consultsL2 l1 acc = false := by simpa using hc
      exact .inr (.inr (.inr ⟨l1, l2, rfl, hc, by simp [CacheHierarchy.observe, hc]⟩))

/-- An access changes no level's configuration. -/
@[simp] theorem CacheHierarchy.observe_configs (h : CacheHierarchy) (acc : Access) :
    (h.observe acc).1.configs = h.configs := by
  rcases h.observe_cases acc with ⟨rfl, e⟩ | ⟨l1, rfl, e⟩ | ⟨l1, l2, rfl, -, e⟩ | ⟨l1, l2, rfl, -, e⟩ <;>
    simp [e, CacheHierarchy.configs]

/-- An access does not change the hierarchy's empty form. -/
@[simp] theorem CacheHierarchy.observe_cold (h : CacheHierarchy) (acc : Access) :
    (h.observe acc).1.cold = h.cold := by
  rcases h.observe_cases acc with ⟨rfl, e⟩ | ⟨l1, rfl, e⟩ | ⟨l1, l2, rfl, -, e⟩ | ⟨l1, l2, rfl, -, e⟩ <;>
    simp [e, CacheHierarchy.cold]

@[simp] theorem CacheHierarchy.observeAll_nil (h : CacheHierarchy) : h.observeAll [] = (h, []) := rfl

/-- Observing accesses in two parts. -/
theorem CacheHierarchy.observeAll_append (h : CacheHierarchy) (as bs : List Access) :
    h.observeAll (as ++ bs) =
      (((h.observeAll as).1.observeAll bs).1, (h.observeAll as).2 ++ ((h.observeAll as).1.observeAll bs).2) := by
  induction as generalizing h with
  | nil => simp
  | cons a as ih => simp [CacheHierarchy.observeAll, ih, List.append_assoc]

end Sys2Proof.Machine
end

