-- ==== Sys2Proof/Laws/Encoding.lean ====
section
/-! SUPPORT. The fields of an encoded word, and the immediates a 7-bit field carries. -/

namespace Sys2Proof

@[simp] theorem regBits_toFin (r : Reg) : (regBits r).toFin = r := rfl

/-- `simm7` is the two's-complement value of the field (R94). -/
theorem simm7_eq_toInt (v : BitVec 7) : simm7 v = v.toInt := by
  unfold simm7
  rw [BitVec.toInt_eq_toNat_cond]
  have := v.isLt
  split <;> split <;> omega

/-- The range of a sign-extended immediate (R94). -/
theorem simm7_range (v : BitVec 7) : -64 ≤ simm7 v ∧ simm7 v ≤ 63 := by
  unfold simm7
  have := v.isLt
  split <;> omega

theorem immInRange_iff (imm : Int) : immInRange imm = true ↔ -64 ≤ imm ∧ imm ≤ 63 := by
  simp [immInRange]

@[simp] theorem immInRange_simm7 (v : BitVec 7) : immInRange (simm7 v) = true :=
  (immInRange_iff _).mpr (simm7_range v)

@[simp] theorem immBits_simm7 (v : BitVec 7) : immBits (simm7 v) = v := by
  rw [simm7_eq_toInt]; exact BitVec.ofInt_toInt

theorem simm7_immBits (imm : Int) (h : immInRange imm = true) : simm7 (immBits imm) = imm := by
  obtain ⟨h1, h2⟩ := (immInRange_iff imm).mp h
  rw [simm7_eq_toInt, immBits, BitVec.toInt_ofInt, Int.bmod_def]
  norm_num
  split <;> omega

/-- The fields of a word of format RRR (R91). -/
theorem field_encodeRRR (a b d : Reg) (f : BitVec 4) :
    opcodeField (encodeRRR a b d f) = 0 ∧ regField (encodeRRR a b d f) 10 = a ∧
      regField (encodeRRR a b d f) 7 = b ∧ regField (encodeRRR a b d f) 4 = d ∧
      funcField (encodeRRR a b d f) = f.toFin := by
  have key : ∀ lo len (v : BitVec len), field (encodeRRR a b d f) lo len = v →
      (field (encodeRRR a b d f) lo len).toFin = v.toFin := fun _ _ _ h => by rw [h]
  refine ⟨key 13 3 0#3 ?_, key 10 3 (regBits a) ?_, key 7 3 (regBits b) ?_, key 4 3 (regBits d) ?_, key 0 4 f ?_⟩ <;>
  · unfold field encodeRRR
    ext i hi
    simp only [BitVec.getElem_extractLsb', BitVec.getLsbD_append]
    interval_cases i <;> simp [BitVec.getLsbD_eq_getElem]

/-- The fields of a word of `jr` (R91, R101). -/
theorem field_encodeJr (a : Reg) (g : BitVec 6) :
    opcodeField (encode (.jr a g)) = 0 ∧ regField (encode (.jr a g)) 10 = a ∧
      field (encode (.jr a g)) 4 6 = g ∧ funcField (encode (.jr a g)) = 8 := by
  have key : ∀ lo len (v : BitVec len), field (encode (.jr a g)) lo len = v →
      (field (encode (.jr a g)) lo len).toFin = v.toFin := fun _ _ _ h => by rw [h]
  refine ⟨key 13 3 0#3 ?_, key 10 3 (regBits a) ?_, ?_, key 0 4 8#4 ?_⟩ <;>
  · unfold field encode
    ext i hi
    simp only [BitVec.getElem_extractLsb', BitVec.getLsbD_append]
    interval_cases i <;> simp [BitVec.getLsbD_eq_getElem]

/-- The fields of a word of format RRI (R92). -/
theorem field_encodeRRI (op : BitVec 3) (a b : Reg) (v : BitVec 7) :
    opcodeField (encodeRRI op a b v) = op.toFin ∧ regField (encodeRRI op a b v) 10 = a ∧
      regField (encodeRRI op a b v) 7 = b ∧ field (encodeRRI op a b v) 0 7 = v := by
  have key : ∀ lo len (u : BitVec len), field (encodeRRI op a b v) lo len = u →
      (field (encodeRRI op a b v) lo len).toFin = u.toFin := fun _ _ _ h => by rw [h]
  refine ⟨key 13 3 op ?_, key 10 3 (regBits a) ?_, key 7 3 (regBits b) ?_, ?_⟩ <;>
  · unfold field encodeRRI
    ext i hi
    simp only [BitVec.getElem_extractLsb', BitVec.getLsbD_append]
    interval_cases i <;> simp [BitVec.getLsbD_eq_getElem]

/-- The fields of a word of format J (R93). -/
theorem field_encodeJ (op : BitVec 3) (t : Addr) :
    opcodeField (encodeJ op t) = op.toFin ∧ field (encodeJ op t) 0 13 = t := by
  have key : ∀ lo len (u : BitVec len), field (encodeJ op t) lo len = u →
      (field (encodeJ op t) lo len).toFin = u.toFin := fun _ _ _ h => by rw [h]
  refine ⟨key 13 3 op ?_, ?_⟩ <;>
  · unfold field encodeJ
    ext i hi
    simp only [BitVec.getElem_extractLsb', BitVec.getLsbD_append]
    interval_cases i <;> simp [BitVec.getLsbD_eq_getElem]

/-- The last arm of `decodeFunc` is taken by function code 15 alone. -/
theorem decodeFunc_last_arm (w : Word) (h : ∀ k < 15, (funcField w).val ≠ k) : (funcField w).val = 15 := by
  by_contra h'
  exact h (funcField w).val (by have := (funcField w).isLt; omega) rfl

end Sys2Proof
end

