-- ==== Sys2Proof/Laws/Operands.lean ====
section
/-! SUPPORT. The operand forms as numbers, and the words laid out from their fields. -/

namespace Sys2Proof.Machine

/-- The sum with an immediate, modulo 65536 (R126). -/
theorem addImmediate_toNat (v : Word) (imm : Int) :
    ((addImmediate v imm).toNat : Int) = (v.toNat + imm) % 65536 := by
  unfold addImmediate; rw [BitVec.toNat_ofInt]; omega

/-- The target of a taken branch, modulo 8192 (R143). -/
theorem branchTarget_toNat (pc : Addr) (rel : Int) :
    ((branchTarget pc rel).toNat : Int) = (pc.toNat + 1 + rel) % 8192 := by
  unfold branchTarget; rw [BitVec.toNat_ofInt]; omega

/-- The low 13 bits of a register (R140). -/
@[simp] theorem registerTarget_toNat (v : Word) : (registerTarget v).toNat = v.toNat % 8192 := by
  simp [registerTarget]

/-- The link value, modulo 8192 (R142). -/
theorem linkValue_toNat (pc : Addr) : (linkValue pc).toNat = (pc.toNat + 1) % 8192 := by
  unfold linkValue; rw [BitVec.toNat_ofNat, BitVec.toNat_add]; simp; omega

/-- The unsigned comparison as a number (R130). -/
theorem lessThan_toNat (a b : Word) : (lessThan a b).toNat = if a.toNat < b.toNat then 1 else 0 := by
  unfold lessThan; split <;> rfl

/-- `simm7` of a field given by its number (R94). -/
theorem simm7_ofNat (k : Nat) (h : k < 128) : simm7 (BitVec.ofNat 7 k) = simm7Of k := by
  unfold simm7 simm7Of; simp [Nat.mod_eq_of_lt h]

theorem immInRange_simm7Of (k : Nat) (h : k < 128) : immInRange (simm7Of k) = true := by
  rw [← simm7_ofNat k h]; simp

theorem immBits_simm7Of (k : Nat) (h : k < 128) : immBits (simm7Of k) = BitVec.ofNat 7 k := by
  rw [← simm7_ofNat k h]; simp

/-- A word laid out by its numbers is the word put together from its bits (R91). -/
theorem wordRRR_eq (a b d : Reg) (f : Fin 16) : wordRRR a b d f.val = encodeRRR a b d (BitVec.ofFin f) := by
  apply BitVec.eq_of_toNat_eq
  unfold wordRRR encodeRRR
  rw [BitVec.toNat_ofNat]
  erw [BitVec.toNat_append, BitVec.toNat_append, BitVec.toNat_append, BitVec.toNat_append]
  simp only [regBits, BitVec.toNat_ofFin, BitVec.toNat_ofNat]
  have := a.isLt; have := b.isLt; have := d.isLt; have := f.isLt
  rw [← Nat.shiftLeft_add_eq_or_of_lt (by omega), ← Nat.shiftLeft_add_eq_or_of_lt (by omega),
    ← Nat.shiftLeft_add_eq_or_of_lt (by omega), ← Nat.shiftLeft_add_eq_or_of_lt (by omega)]
  simp only [Nat.shiftLeft_eq]; omega

/-- The word of `jr` by its numbers (R91, R101). -/
theorem wordJr_eq (a : Reg) (g : BitVec 6) :
    BitVec.ofNat 16 (a.val * 1024 + g.toNat * 16 + 8) = encode (.jr a g) := by
  apply BitVec.eq_of_toNat_eq
  rw [BitVec.toNat_ofNat]
  unfold encode
  erw [BitVec.toNat_append, BitVec.toNat_append, BitVec.toNat_append]
  simp only [regBits, BitVec.toNat_ofFin, BitVec.toNat_ofNat]
  have := a.isLt; have := g.isLt
  rw [← Nat.shiftLeft_add_eq_or_of_lt (by omega), ← Nat.shiftLeft_add_eq_or_of_lt (by omega),
    ← Nat.shiftLeft_add_eq_or_of_lt (by omega)]
  simp only [Nat.shiftLeft_eq]; omega

/-- A word of format RRI by its numbers (R92). -/
theorem wordRRI_eq (op : Fin 8) (a b : Reg) (k : Nat) (hk : k < 128) :
    wordRRI op.val a b k = encodeRRI (BitVec.ofFin op) a b (BitVec.ofNat 7 k) := by
  apply BitVec.eq_of_toNat_eq
  unfold wordRRI encodeRRI
  rw [BitVec.toNat_ofNat]
  erw [BitVec.toNat_append, BitVec.toNat_append, BitVec.toNat_append]
  simp only [regBits, BitVec.toNat_ofFin, BitVec.toNat_ofNat]
  have := op.isLt; have := a.isLt; have := b.isLt
  rw [Nat.mod_eq_of_lt (by omega : k < 2 ^ 7)]
  rw [← Nat.shiftLeft_add_eq_or_of_lt (by omega), ← Nat.shiftLeft_add_eq_or_of_lt (by omega),
    ← Nat.shiftLeft_add_eq_or_of_lt (by omega)]
  simp only [Nat.shiftLeft_eq]; omega

/-- A word of format J by its numbers (R93). -/
theorem wordJ_eq (op : Fin 8) (t : Addr) : wordJ op.val t = encodeJ (BitVec.ofFin op) t := by
  apply BitVec.eq_of_toNat_eq
  unfold wordJ encodeJ
  rw [BitVec.toNat_ofNat]
  erw [BitVec.toNat_append]
  simp only [BitVec.toNat_ofFin]
  have := op.isLt; have := t.isLt
  rw [← Nat.shiftLeft_add_eq_or_of_lt (by omega)]
  simp only [Nat.shiftLeft_eq]; omega

end Sys2Proof.Machine
end

