-- ==== Sys2Proof/Laws/PerInstr.lean ====
section
/-! SUPPORT. Statements made for every constructor of `Instr`. -/

namespace Sys2Proof.Laws.RowMatch

/-- The encoded word is one of the instruction's own row of spec/opcode_table.json. -/
def Statement (i : Instr) : Prop :=
  ∃ row ∈ opcodeTable, row.mnemonic = i.mnemonic ∧ row.covers (encode i) = true

/-- A word of format RRR under the mask of its rows (R91, R99). -/
theorem masked_encodeRRR (a b d : Reg) (f : BitVec 4) : encodeRRR a b d f &&& 0xE00F#16 = f.setWidth 16 := by
  unfold encodeRRR
  apply BitVec.eq_of_getLsbD_eq
  intro i hi
  simp only [BitVec.getLsbD_and, BitVec.getLsbD_append, BitVec.getLsbD_setWidth]
  interval_cases i <;> simp

/-- A word of format RRI under the mask of its rows (R92, R98). -/
theorem masked_encodeRRI (op : BitVec 3) (a b : Reg) (v : BitVec 7) :
    encodeRRI op a b v &&& 0xE000#16 = op ++ 0#13 := by
  unfold encodeRRI
  apply BitVec.eq_of_getLsbD_eq
  intro i hi
  simp only [BitVec.getLsbD_and, BitVec.getLsbD_append]
  interval_cases i <;> simp

/-- A word of format J under the mask of its rows (R93, R98). -/
theorem masked_encodeJ (op : BitVec 3) (t : Addr) : encodeJ op t &&& 0xE000#16 = op ++ 0#13 := by
  unfold encodeJ
  apply BitVec.eq_of_getLsbD_eq
  intro i hi
  simp only [BitVec.getLsbD_and, BitVec.getLsbD_append]
  interval_cases i <;> simp

/-- A word of `jr` under the mask of its row (R91, R99). -/
theorem masked_encodeJr (a : Reg) (g : BitVec 6) : encode (.jr a g) &&& 0xE00F#16 = 8#16 := by
  unfold encode
  apply BitVec.eq_of_getLsbD_eq
  intro i hi
  simp only [BitVec.getLsbD_and, BitVec.getLsbD_append]
  interval_cases i <;> simp

theorem add (a b d : Reg) : Statement (.add a b d) :=
  ⟨⟨"add", 0x0000#16, 0xE00F#16⟩, by simp [opcodeTable, opcodeZeroRows, otherOpcodeRows], rfl, by
    simp [OpcodeRow.covers, encode, masked_encodeRRR]⟩

theorem sub (a b d : Reg) : Statement (.sub a b d) :=
  ⟨⟨"sub", 0x0001#16, 0xE00F#16⟩, by simp [opcodeTable, opcodeZeroRows, otherOpcodeRows], rfl, by
    simp [OpcodeRow.covers, encode, masked_encodeRRR]⟩

theorem or (a b d : Reg) : Statement (.or a b d) :=
  ⟨⟨"or", 0x0002#16, 0xE00F#16⟩, by simp [opcodeTable, opcodeZeroRows, otherOpcodeRows], rfl, by
    simp [OpcodeRow.covers, encode, masked_encodeRRR]⟩

theorem and (a b d : Reg) : Statement (.and a b d) :=
  ⟨⟨"and", 0x0003#16, 0xE00F#16⟩, by simp [opcodeTable, opcodeZeroRows, otherOpcodeRows], rfl, by
    simp [OpcodeRow.covers, encode, masked_encodeRRR]⟩

theorem slt (a b d : Reg) : Statement (.slt a b d) :=
  ⟨⟨"slt", 0x0004#16, 0xE00F#16⟩, by simp [opcodeTable, opcodeZeroRows, otherOpcodeRows], rfl, by
    simp [OpcodeRow.covers, encode, masked_encodeRRR]⟩

theorem jr (a : Reg) (g : BitVec 6) : Statement (.jr a g) :=
  ⟨⟨"jr", 0x0008#16, 0xE00F#16⟩, by simp [opcodeTable, opcodeZeroRows, otherOpcodeRows], rfl, by
    simp [OpcodeRow.covers, masked_encodeJr]⟩

theorem op0Func5 (a b d : Reg) : Statement (.op0Func5 a b d) :=
  ⟨⟨"op0.func5", 0x0005#16, 0xE00F#16⟩, by simp [opcodeTable, opcodeZeroRows, otherOpcodeRows], rfl, by
    simp [OpcodeRow.covers, encode, masked_encodeRRR]⟩

theorem op0Func6 (a b d : Reg) : Statement (.op0Func6 a b d) :=
  ⟨⟨"op0.func6", 0x0006#16, 0xE00F#16⟩, by simp [opcodeTable, opcodeZeroRows, otherOpcodeRows], rfl, by
    simp [OpcodeRow.covers, encode, masked_encodeRRR]⟩

theorem op0Func7 (a b d : Reg) : Statement (.op0Func7 a b d) :=
  ⟨⟨"op0.func7", 0x0007#16, 0xE00F#16⟩, by simp [opcodeTable, opcodeZeroRows, otherOpcodeRows], rfl, by
    simp [OpcodeRow.covers, encode, masked_encodeRRR]⟩

theorem op0Func9 (a b d : Reg) : Statement (.op0Func9 a b d) :=
  ⟨⟨"op0.func9", 0x0009#16, 0xE00F#16⟩, by simp [opcodeTable, opcodeZeroRows, otherOpcodeRows], rfl, by
    simp [OpcodeRow.covers, encode, masked_encodeRRR]⟩

theorem op0Func10 (a b d : Reg) : Statement (.op0Func10 a b d) :=
  ⟨⟨"op0.func10", 0x000A#16, 0xE00F#16⟩, by simp [opcodeTable, opcodeZeroRows, otherOpcodeRows], rfl, by
    simp [OpcodeRow.covers, encode, masked_encodeRRR]⟩

theorem op0Func11 (a b d : Reg) : Statement (.op0Func11 a b d) :=
  ⟨⟨"op0.func11", 0x000B#16, 0xE00F#16⟩, by simp [opcodeTable, opcodeZeroRows, otherOpcodeRows], rfl, by
    simp [OpcodeRow.covers, encode, masked_encodeRRR]⟩

theorem op0Func12 (a b d : Reg) : Statement (.op0Func12 a b d) :=
  ⟨⟨"op0.func12", 0x000C#16, 0xE00F#16⟩, by simp [opcodeTable, opcodeZeroRows, otherOpcodeRows], rfl, by
    simp [OpcodeRow.covers, encode, masked_encodeRRR]⟩

theorem op0Func13 (a b d : Reg) : Statement (.op0Func13 a b d) :=
  ⟨⟨"op0.func13", 0x000D#16, 0xE00F#16⟩, by simp [opcodeTable, opcodeZeroRows, otherOpcodeRows], rfl, by
    simp [OpcodeRow.covers, encode, masked_encodeRRR]⟩

theorem op0Func14 (a b d : Reg) : Statement (.op0Func14 a b d) :=
  ⟨⟨"op0.func14", 0x000E#16, 0xE00F#16⟩, by simp [opcodeTable, opcodeZeroRows, otherOpcodeRows], rfl, by
    simp [OpcodeRow.covers, encode, masked_encodeRRR]⟩

theorem op0Func15 (a b d : Reg) : Statement (.op0Func15 a b d) :=
  ⟨⟨"op0.func15", 0x000F#16, 0xE00F#16⟩, by simp [opcodeTable, opcodeZeroRows, otherOpcodeRows], rfl, by
    simp [OpcodeRow.covers, encode, masked_encodeRRR]⟩

theorem addi (a b : Reg) (imm : Int) : Statement (.addi a b imm) :=
  ⟨⟨"addi", 0x2000#16, 0xE000#16⟩, by simp [opcodeTable, opcodeZeroRows, otherOpcodeRows], rfl, by
    simp [OpcodeRow.covers, encode, masked_encodeRRI]⟩

theorem lw (a b : Reg) (imm : Int) : Statement (.lw a b imm) :=
  ⟨⟨"lw", 0x8000#16, 0xE000#16⟩, by simp [opcodeTable, opcodeZeroRows, otherOpcodeRows], rfl, by
    simp [OpcodeRow.covers, encode, masked_encodeRRI]⟩

theorem sw (a b : Reg) (imm : Int) : Statement (.sw a b imm) :=
  ⟨⟨"sw", 0xA000#16, 0xE000#16⟩, by simp [opcodeTable, opcodeZeroRows, otherOpcodeRows], rfl, by
    simp [OpcodeRow.covers, encode, masked_encodeRRI]⟩

theorem jeq (a b : Reg) (imm : Int) : Statement (.jeq a b imm) :=
  ⟨⟨"jeq", 0xC000#16, 0xE000#16⟩, by simp [opcodeTable, opcodeZeroRows, otherOpcodeRows], rfl, by
    simp [OpcodeRow.covers, encode, masked_encodeRRI]⟩

theorem slti (a b : Reg) (v : BitVec 7) : Statement (.slti a b v) :=
  ⟨⟨"slti", 0xE000#16, 0xE000#16⟩, by simp [opcodeTable, opcodeZeroRows, otherOpcodeRows], rfl, by
    simp [OpcodeRow.covers, encode, masked_encodeRRI]⟩

theorem j (t : Addr) : Statement (.j t) :=
  ⟨⟨"j", 0x4000#16, 0xE000#16⟩, by simp [opcodeTable, opcodeZeroRows, otherOpcodeRows], rfl, by
    simp [OpcodeRow.covers, encode, masked_encodeJ]⟩

theorem jal (t : Addr) : Statement (.jal t) :=
  ⟨⟨"jal", 0x6000#16, 0xE000#16⟩, by simp [opcodeTable, opcodeZeroRows, otherOpcodeRows], rfl, by
    simp [OpcodeRow.covers, encode, masked_encodeJ]⟩

end Sys2Proof.Laws.RowMatch
end

