-- ==== Sys2Proof/Laws/Step.lean ====
section
/-! SUPPORT. What one step can do, said once: the cases of a next state, and what stops. -/

namespace Sys2Proof.Machine

/-- An unnamed function code advances the pc or, under `refuse`, is refused by its name. -/
theorem unnamedFunction_cases (f : Nat) (s : State) :
    (s.params.undefFunc = .nop ∧ unnamedFunction f s = .next s.advance) ∨
    (s.params.undefFunc = .refuse ∧ unnamedFunction f s = .refused (.unnamedFunction f)) := by
  unfold unnamedFunction
  cases s.params.undefFunc <;> simp

/-- Every outcome of an instruction: a register result, a mere advance, a jump, a halt, a link, a load, a store, or the
refusal of an unnamed function code. -/
theorem exec_cases (i : Instr) (s : State) :
    (∃ d v, exec i s = .next (s.writeReg d v).advance ∧ reportsOf i s = [] ∧ isSelfJump i s = false) ∨
    (exec i s = .next s.advance ∧ reportsOf i s = [] ∧ isSelfJump i s = false) ∨
    (∃ a, exec i s = .next (s.setPc a) ∧ reportsOf i s = [] ∧ isSelfJump i s = false) ∨
    (i = .j s.pc ∧ exec i s = .next s.halt) ∨
    (∃ a, i = .jal a ∧ exec i s = .next ((s.writeReg linkReg (linkValue s.pc)).setPc a)) ∨
    (∃ b d imm, i = .lw b d imm ∧ d ≠ 0 ∧
      exec i s = .next (((s.writeReg d (s.load (effectiveAddress s b imm))).report (effectiveAddress s b imm) .load).advance)) ∨
    (∃ b r imm, i = .sw b r imm ∧
      exec i s = .next (((s.store (effectiveAddress s b imm) (s.readReg r)).report (effectiveAddress s b imm) .store).advance)) ∨
    (∃ f, s.params.undefFunc = .refuse ∧ exec i s = .refused (.unnamedFunction f)) := by
  have unnamed : ∀ (j : Instr) (f : Nat), exec j s = unnamedFunction f s →
      reportsOf j s = [] → isSelfJump j s = false →
      (exec j s = .next s.advance ∧ reportsOf j s = [] ∧ isSelfJump j s = false) ∨
      (∃ f, s.params.undefFunc = .refuse ∧ exec j s = .refused (.unnamedFunction f)) := by
    intro j f h h1 h2
    rcases unnamedFunction_cases f s with ⟨-, e⟩ | ⟨hp, e⟩
    · exact .inl ⟨h.trans e, h1, h2⟩
    · exact .inr ⟨f, hp, h.trans e⟩
  cases i with
  | add a b d => exact .inl ⟨d, _, rfl, rfl, rfl⟩
  | sub a b d => exact .inl ⟨d, _, rfl, rfl, rfl⟩
  | or a b d => exact .inl ⟨d, _, rfl, rfl, rfl⟩
  | and a b d => exact .inl ⟨d, _, rfl, rfl, rfl⟩
  | slt a b d => exact .inl ⟨d, _, rfl, rfl, rfl⟩
  | addi a d imm => exact .inl ⟨d, _, rfl, rfl, rfl⟩
  | slti a d imm => exact .inl ⟨d, _, rfl, rfl, rfl⟩
  | jr a g => exact .inr (.inr (.inl ⟨_, rfl, rfl, rfl⟩))
  | jal a => exact .inr (.inr (.inr (.inr (.inl ⟨a, rfl, rfl⟩))))
  | sw b r imm => exact .inr (.inr (.inr (.inr (.inr (.inr (.inl ⟨b, r, imm, rfl, rfl⟩))))))
  | j t =>
    by_cases h : t = s.pc
    · exact .inr (.inr (.inr (.inl ⟨by rw [h], by simp [exec, execJ, h]⟩)))
    · exact .inr (.inr (.inl ⟨t, by simp [exec, execJ, h], rfl, by simp [isSelfJump, h]⟩))
  | jeq a b rel =>
    by_cases h : s.readReg a = s.readReg b
    · exact .inr (.inr (.inl ⟨branchTarget s.pc rel, by simp only [exec, execJeq, h, if_true], rfl, rfl⟩))
    · exact .inr (.inl ⟨by simp [exec, execJeq, h], rfl, rfl⟩)
  | lw b d imm =>
    by_cases h : d = 0
    · exact .inr (.inl ⟨by simp [exec, execLw, h], by simp [reportsOf, h], rfl⟩)
    · exact .inr (.inr (.inr (.inr (.inr (.inl ⟨b, d, imm, rfl, h, by simp [exec, execLw, h]⟩)))))
  | op0Func5 a b d =>
    rcases unnamed (.op0Func5 a b d) 5 rfl rfl rfl with e | e
    · exact .inr (.inl e)
    · exact .inr (.inr (.inr (.inr (.inr (.inr (.inr e))))))
  | op0Func6 a b d =>
    rcases unnamed (.op0Func6 a b d) 6 rfl rfl rfl with e | e
    · exact .inr (.inl e)
    · exact .inr (.inr (.inr (.inr (.inr (.inr (.inr e))))))
  | op0Func7 a b d =>
    rcases unnamed (.op0Func7 a b d) 7 rfl rfl rfl with e | e
    · exact .inr (.inl e)
    · exact .inr (.inr (.inr (.inr (.inr (.inr (.inr e))))))
  | op0Func9 a b d =>
    rcases unnamed (.op0Func9 a b d) 9 rfl rfl rfl with e | e
    · exact .inr (.inl e)
    · exact .inr (.inr (.inr (.inr (.inr (.inr (.inr e))))))
  | op0Func10 a b d =>
    rcases unnamed (.op0Func10 a b d) 10 rfl rfl rfl with e | e
    · exact .inr (.inl e)
    · exact .inr (.inr (.inr (.inr (.inr (.inr (.inr e))))))
  | op0Func11 a b d =>
    rcases unnamed (.op0Func11 a b d) 11 rfl rfl rfl with e | e
    · exact .inr (.inl e)
    · exact .inr (.inr (.inr (.inr (.inr (.inr (.inr e))))))
  | op0Func12 a b d =>
    rcases unnamed (.op0Func12 a b d) 12 rfl rfl rfl with e | e
    · exact .inr (.inl e)
    · exact .inr (.inr (.inr (.inr (.inr (.inr (.inr e))))))
  | op0Func13 a b d =>
    rcases unnamed (.op0Func13 a b d) 13 rfl rfl rfl with e | e
    · exact .inr (.inl e)
    · exact .inr (.inr (.inr (.inr (.inr (.inr (.inr e))))))
  | op0Func14 a b d =>
    rcases unnamed (.op0Func14 a b d) 14 rfl rfl rfl with e | e
    · exact .inr (.inl e)
    · exact .inr (.inr (.inr (.inr (.inr (.inr (.inr e))))))
  | op0Func15 a b d =>
    rcases unnamed (.op0Func15 a b d) 15 rfl rfl rfl with e | e
    · exact .inr (.inl e)
    · exact .inr (.inr (.inr (.inr (.inr (.inr (.inr e))))))

/-- A step answers a next state exactly when the machine runs and the decoded instruction does. -/
theorem step_next_iff (s t : State) :
    step s = .next t ↔ s.halted = false ∧ exec (decode s.fetch) s = .next t := by
  unfold step cycle
  cases s.halted <;> simp

/-- A step of a machine that runs is the decoded instruction. -/
theorem step_running (s : State) (h : s.halted = false) : step s = exec (decode s.fetch) s := by
  unfold step cycle; simp [h]

end Sys2Proof.Machine
end

