-- ==== Sys2Proof/Tests/Slice0.lean ====
section
/-! SUPPORT. The model's own tests. Expected results come from spec/95_test_vectors.md, by the vector each names, or are
read off the encodings of spec/30_encoding.md. The last part shows, for every statement of Obligations.lean that has
hypotheses, a concrete instance that meets them. -/

namespace Sys2Proof.Tests

open Sys2Proof Sys2Proof.Machine

/-! ### Well-formedness: each check refuses a term -/

theorem test_addi_immediate_above_range : (Instr.addi 1 2 64).wellFormed = false := by decide
theorem test_lw_immediate_below_range : (Instr.lw 1 2 (-65)).wellFormed = false := by decide
theorem test_sw_immediate_above_range : (Instr.sw 1 2 64).wellFormed = false := by decide
theorem test_jeq_offset_below_range : (Instr.jeq 1 2 (-65)).wellFormed = false := by decide
theorem test_immediate_range_ends :
    (Instr.addi 1 2 (-64)).wellFormed = true ∧ (Instr.jeq 1 2 63).wellFormed = true := by decide

/-! ### Decoding: every constructor's word, written out bit by bit (R91 to R99) -/

theorem test_decode_add : decode 0b0000010100110000#16 = .add 1 2 3 := by decide
theorem test_decode_sub : decode 0b0001100010110001#16 = .sub 6 1 3 := by decide
theorem test_decode_or : decode 0b0001010001110010#16 = .or 5 0 7 := by decide
theorem test_decode_and : decode 0b0000011110100011#16 = .and 1 7 2 := by decide
theorem test_decode_slt : decode 0b0001001010000100#16 = .slt 4 5 0 := by decide
theorem test_decode_func5 : decode 0b0000010100110101#16 = .op0Func5 1 2 3 := by decide
theorem test_decode_func6 : decode 0b0000010100110110#16 = .op0Func6 1 2 3 := by decide
theorem test_decode_func7 : decode 0b0000010100110111#16 = .op0Func7 1 2 3 := by decide
theorem test_decode_jr : decode 0b0001110101111000#16 = .jr 7 0b010111#6 := by decide
theorem test_decode_func9 : decode 0b0000010100111001#16 = .op0Func9 1 2 3 := by decide
theorem test_decode_func10 : decode 0b0000010100111010#16 = .op0Func10 1 2 3 := by decide
theorem test_decode_func11 : decode 0b0000010100111011#16 = .op0Func11 1 2 3 := by decide
theorem test_decode_func12 : decode 0b0000010100111100#16 = .op0Func12 1 2 3 := by decide
theorem test_decode_func13 : decode 0b0000010100111101#16 = .op0Func13 1 2 3 := by decide
theorem test_decode_func14 : decode 0b0000010100111110#16 = .op0Func14 1 2 3 := by decide
theorem test_decode_func15 : decode 0b0000010100111111#16 = .op0Func15 1 2 3 := by decide
theorem test_decode_addi : decode 0b0010100011000000#16 = .addi 2 1 (-64) := by decide
theorem test_decode_j : decode 0b0101000000000011#16 = .j 4099 := by decide
theorem test_decode_jal : decode 0b0110000001100100#16 = .jal 100 := by decide
theorem test_decode_lw : decode 0b1000100010111111#16 = .lw 2 1 63 := by decide
theorem test_decode_sw : decode 0b1010100110000001#16 = .sw 2 3 1 := by decide
theorem test_decode_jeq : decode 0b1101010101111110#16 = .jeq 5 2 (-2) := by decide
theorem test_decode_slti : decode 0b1110010101111111#16 = .slti 1 2 127 := by decide
theorem test_decode_table_word : decodeTableWord 16 0x2085 = some (.addi 0 1 5) := by decide

/-! ### Single steps -/

/-- Level L1 of the single-instruction vectors: size 4, associativity 1, block 1. -/
def smallL1 : CacheHierarchy := .one (coldLevel { size := 4, assoc := 1, blockSize := 1 })

/-- The reset state with this pc, these registers and memory words, L1 as above, and the word at the pc. -/
def atWord (w : Word) (pc : Addr) (regs : List (Reg × Word)) (mem : List (Addr × Word)) : State :=
  let s := regs.foldl (fun s p => s.writeReg p.1 p.2) { State.reset with pc := pc, caches := smallL1 }
  (mem.foldl (fun s p => s.store p.1 p.2) s).withFetchWord 16 w.toNat

/-- The step answers a next state with this property. -/
def answers (s : State) (p : State → Bool) : Bool :=
  match step s with
  | .next t => p t
  | _ => false

/-- V-A1. -/
theorem test_add_wraps :
    answers (atWord 0x0530#16 0 [(1, 0xFFFF#16), (2, 0x0001#16)] []) (fun t => t.readReg 3 == 0x0000#16 && t.pc == 1) = true := by
  decide

/-- V-A5 at the pc of V-A6. -/
theorem test_add_destination_is_source_at_top_of_memory :
    answers (atWord 0x0490#16 8191 [(1, 0x8001#16)] []) (fun t => t.readReg 1 == 0x0002#16 && t.pc == 0) = true := by
  decide

/-- V-A7. -/
theorem test_sub_wraps :
    answers (atWord 0x0531#16 0 [(1, 0x0000#16), (2, 0x0001#16)] []) (fun t => t.readReg 3 == 0xFFFF#16 && t.pc == 1) = true := by
  decide

/-- V-A9. -/
theorem test_sub_operand_order :
    answers (atWord 0x0531#16 0 [(1, 0x8000#16), (2, 0x0001#16)] []) (fun t => t.readReg 3 == 0x7FFF#16) = true := by
  decide

/-- V-A11. -/
theorem test_or_bits :
    answers (atWord 0x0532#16 0 [(1, 0x0F0F#16), (2, 0x00FF#16)] []) (fun t => t.readReg 3 == 0x0FFF#16 && t.pc == 1) = true := by
  decide

/-- V-A13. -/
theorem test_and_bits :
    answers (atWord 0x0533#16 0 [(1, 0x0F0F#16), (2, 0x00FF#16)] []) (fun t => t.readReg 3 == 0x000F#16 && t.pc == 1) = true := by
  decide

/-- V-A15. -/
theorem test_slt_is_unsigned :
    answers (atWord 0x0534#16 0 [(1, 0xFFFF#16), (2, 0x0001#16)] []) (fun t => t.readReg 3 == 0#16 && t.pc == 1) = true := by
  decide

/-- V-A18. -/
theorem test_slt_less :
    answers (atWord 0x00B4#16 0 [(1, 0x8000#16)] []) (fun t => t.readReg 3 == 1#16) = true := by
  decide

/-- V-A4. -/
theorem test_add_to_register_zero :
    answers (atWord 0x0500#16 0 [(1, 0x0005#16), (2, 0x0006#16)] []) (fun t => t.readReg 0 == 0#16 && t.pc == 1) = true := by
  decide

/-- V-A19. -/
theorem test_func5_writes_nothing :
    answers (atWord 0x0535#16 0 [(1, 0x0005#16), (2, 0x0007#16)] []) (fun t => t.readReg 3 == 0#16 && t.pc == 1) = true := by
  decide

/-- V-A20. -/
theorem test_func15_writes_nothing :
    answers (atWord 0x051F#16 0 [(1, 0x0005#16), (2, 0x0007#16)] []) (fun t => t.readReg 1 == 0x0005#16 && t.pc == 1) = true := by
  decide

/-- V-A21. -/
theorem test_func9_writes_nothing :
    answers (atWord 0x1FF9#16 0 [(7, 0x0100#16)] []) (fun t => t.readReg 7 == 0x0100#16 && t.pc == 1) = true := by
  decide

/-- V-A22. -/
theorem test_jr_low_13_bits :
    answers (atWord 0x1C08#16 40 [(7, 0x2005#16)] []) (fun t => t.pc == 5 && !t.halted) = true := by
  decide

/-- V-A24. -/
theorem test_jr_ignores_fields :
    answers (atWord 0x02B8#16 77 [] []) (fun t => t.pc == 0 && t.readReg 3 == 0#16) = true := by
  decide

/-- V-I1. -/
theorem test_addi_minus_one :
    answers (atWord 0x20FF#16 0 [] []) (fun t => t.readReg 1 == 0xFFFF#16 && t.pc == 1) = true := by
  decide

/-- V-I4. -/
theorem test_addi_minus_64 :
    answers (atWord 0x28C0#16 0 [(2, 0x000A#16)] []) (fun t => t.readReg 1 == 0xFFCA#16) = true := by
  decide

/-- V-S1. -/
theorem test_slti_minus_one :
    answers (atWord 0xE57F#16 0 [(1, 0x00C8#16)] []) (fun t => t.readReg 2 == 1#16 && t.pc == 1) = true := by
  decide

/-- V-S5. -/
theorem test_slti_equal_is_not_less :
    answers (atWord 0xE53F#16 0 [(1, 0x003F#16)] []) (fun t => t.readReg 2 == 0#16) = true := by
  decide

/-- V-J2. -/
theorem test_j_halts_at_its_own_address :
    answers (atWord 0x5FFF#16 8191 [] []) (fun t => t.halted && t.pc == 8191) = true := by
  decide

/-- V-J5. -/
theorem test_j_elsewhere :
    answers (atWord 0x400B#16 10 [] []) (fun t => !t.halted && t.pc == 11) = true := by
  decide

/-- V-J6. -/
theorem test_jal_links :
    answers (atWord 0x6064#16 10 [] []) (fun t => t.readReg 7 == 0x000B#16 && t.pc == 100) = true := by
  decide

/-- V-J8. -/
theorem test_jal_to_itself_does_not_halt :
    answers (atWord 0x601E#16 30 [] []) (fun t => t.readReg 7 == 0x001F#16 && t.pc == 30 && !t.halted) = true := by
  decide

/-- V-B4. -/
theorem test_jeq_wraps_below_zero :
    answers (atWord 0xC040#16 0 [] []) (fun t => t.pc == 8129) = true := by
  decide

/-- V-B9. -/
theorem test_jeq_compares_16_bits :
    answers (atWord 0xC503#16 0 [(1, 0x2005#16), (2, 0x0005#16)] []) (fun t => t.pc == 1) = true := by
  decide

/-- V-L1. -/
theorem test_lw_loads_and_misses :
    answers (atWord 0x8882#16 3 [(2, 0x0010#16)] [(18, 0xBEEF#16)]) (fun t => t.readReg 1 == 0xBEEF#16 && t.pc == 4 && t.trace == [⟨.L1, .MISS, 3, 18, 2⟩]) = true := by
  decide

/-- V-L5, S3. -/
theorem test_lw_to_register_zero_is_elided :
    answers (atWord 0x8800#16 3 [(2, 0x0040#16)] [(64, 0x4444#16)]) (fun t => t.readReg 0 == 0#16 && t.pc == 4 && t.trace == [] && t.accesses == []) = true := by
  decide

/-- V-W1. -/
theorem test_sw_stores_and_logs :
    answers (atWord 0xA981#16 3 [(2, 0x0010#16), (3, 0x1234#16)] []) (fun t => t.mem.read 17 == 0x1234#16 && t.pc == 4 && t.trace == [⟨.L1, .SW, 3, 17, 1⟩]) = true := by
  decide

/-- V-W2. -/
theorem test_sw_of_register_zero :
    answers (atWord 0xA800#16 3 [(2, 0x0010#16)] [(16, 0x7777#16)]) (fun t => t.mem.read 16 == 0#16 && t.accesses == [⟨16, .store, 3⟩]) = true := by
  decide

/-- V-W5. -/
theorem test_sw_over_its_own_word :
    answers (atWord 0xA083#16 3 [(1, 0x4003#16)] []) (fun t => t.mem.read 3 == 0x4003#16 && t.pc == 4 && !t.halted) = true := by
  decide

/-- V-S1 under `SLTI_IMM = zext`. -/
theorem test_slti_zext :
    answers { atWord 0xE57F#16 0 [(1, 0x00C8#16)] [] with params := { undefFunc := .nop, sltiImm := .zext } }
      (fun t => t.readReg 2 == 0#16) = true := by
  decide

/-- The reset state under `UNDEF_FUNC = refuse`. -/
def refusing : State := { State.reset with params := { undefFunc := .refuse, sltiImm := .sext } }

/-- V-A19 under `UNDEF_FUNC = refuse`. -/
theorem test_func5_refused :
    step { atWord 0x0535#16 0 [] [] with params := { undefFunc := .refuse, sltiImm := .sext } } =
      .refused (.unnamedFunction 5) := by
  rfl

/-- R125 with `dst = 0` under `UNDEF_FUNC = refuse`: the result is the same whatever `dst` is. -/
theorem test_func15_refused_whatever_dst : exec (decode 0x050F#16) refusing = .refused (.unnamedFunction 15) := by rfl

/-- R205, D17. -/
theorem test_halted_has_no_step : step { State.reset with halted := true } = .fault .halted := by rfl

/-! ### The cache hierarchy -/

/-- The table of rule R66's split, level (64, 4, 4). -/
theorem test_address_split :
    [0, 3, 4, 15, 16, 63, 64, 100, 8191].map (fun a : Addr => (rowOf ⟨64, 4, 4⟩ a, tagOf ⟨64, 4, 4⟩ a)) =
      [(0, 0), (0, 0), (1, 0), (3, 0), (0, 1), (3, 3), (0, 4), (1, 6), (3, 511)] := by
  decide

/-- Loads at pc 0 of these addresses. -/
def loads (as : List Addr) : List Access := as.map (fun a => { effAddr := a, kind := .load, pc := 0 })

/-- V-C2. -/
theorem test_hit_promotes :
    let r := (CacheHierarchy.one (coldLevel ⟨2, 2, 1⟩)).observeAll (loads [0, 1, 0, 2, 1, 0])
    r.1 = .one ⟨⟨2, 2, 1⟩, [[1, 0]]⟩ ∧ r.2.map TraceRecord.status = [.MISS, .MISS, .HIT, .MISS, .MISS, .MISS] := by
  decide

/-- V-C4. -/
theorem test_two_levels :
    (CacheHierarchy.two (coldLevel ⟨4, 1, 2⟩) (coldLevel ⟨16, 2, 2⟩)).observeAll
        (loads [8, 9] ++ [{ effAddr := 8, kind := .store, pc := 0 }]) =
      (.two ⟨⟨4, 1, 2⟩, [[2], []]⟩ ⟨⟨16, 2, 2⟩, [[1], [], [], []]⟩,
        [⟨.L1, .MISS, 0, 8, 0⟩, ⟨.L2, .MISS, 0, 8, 0⟩, ⟨.L1, .HIT, 0, 9, 0⟩,
         ⟨.L1, .SW, 0, 8, 0⟩, ⟨.L2, .SW, 0, 8, 0⟩]) := by
  decide

/-- V-C6: address 0 stays in L1 and not in L2 (R78). -/
theorem test_no_inclusion :
    ((CacheHierarchy.two (coldLevel ⟨4, 4, 1⟩) (coldLevel ⟨2, 1, 1⟩)).observeAll (loads [0, 2, 0])).1 =
      .two ⟨⟨4, 4, 1⟩, [[2, 0]]⟩ ⟨⟨2, 1, 1⟩, [[1], []]⟩ := by
  decide

/-- V-C7: three rows. -/
theorem test_rows_need_not_be_a_power_of_two :
    ((CacheHierarchy.one (coldLevel ⟨12, 2, 2⟩)).observeAll (loads [0, 6, 12, 2])).1 =
      .one ⟨⟨12, 2, 2⟩, [[1, 2], [0], []]⟩ := by
  decide

/-! ### Reset, loading and the report -/

/-- V-K3. -/
theorem test_two_levels_configured :
    (checkCacheArgs [4, 1, 2, 16, 2, 2]).map CacheHierarchy.summaryRecords =
      .ok [⟨.L1, 4, 1, 2, 2⟩, ⟨.L2, 16, 2, 2, 4⟩] := by
  decide

/-- V-K4, V-K5, V-K6. -/
theorem test_bad_configurations :
    checkCacheArgs [8, 2] = .error (.invalidCacheConfiguration [8, 2]) ∧
    checkCacheArgs [10, 2, 2] = .error (.invalidCacheConfiguration [10, 2, 2]) ∧
    checkCacheArgs [0, 1, 1] = .error (.invalidCacheConfiguration [0, 1, 1]) := by
  decide

/-- V-F1, S1: the file of the source's example. -/
theorem test_example_file_loads :
    loadLines 0 ["ram[0] = 16'b0010000010000101;", "ram[1] = 16'b0100000000000001;"] = .ok [0x2085#16, 0x4001#16] := by
  decide

/-- V-F3, V-F4: 15 digits, and a digit that is not binary. -/
theorem test_malformed_lines :
    parseLine "ram[0] = 16'b001000001000010;".toList = none ∧
    parseLine "ram[0] = 16'b0010000010000102;".toList = none := by
  decide

/-- V-F7. -/
theorem test_repeated_address :
    loadLines 0 ["ram[0] = 16'b0000000000000000;", "ram[0] = 16'b0000000000000000;"] =
      .error (.addressSequenceError "ram[0] = 16'b0000000000000000;") := by
  decide

/-- The last line of V-F5. -/
theorem test_program_too_large :
    loadLines 8192 ["ram[8192] = 16'b0000000000000000;"] =
      .error (.programTooLarge "ram[8192] = 16'b0000000000000000;") := by
  decide

/-! ### The hypotheses of the statements can be met -/

/-- The legal level (4, 2, 1) with tags in one of its rows. -/
def warmLevel : CacheLevel := { cfg := { size := 4, assoc := 2, blockSize := 1 }, rows := [[0, 5], []] }

theorem warmLevel_wf : LevelWf warmLevel := by
  refine ⟨by decide, by decide, ?_⟩
  intro s hs
  rcases List.mem_cons.mp hs with rfl | hs
  · exact ⟨by decide, by decide, by decide⟩
  · rw [List.mem_singleton.mp hs]
    exact ⟨by decide, by decide, by decide⟩

/-- A state that runs `sw $1, 1($0)` at pc 0, with x1 the word of `j 1`. -/
def storing : State := atWord 0xA081#16 0 [(1, 0x4001#16)] []

/-- A run's reset: the source's example file and one cache level. -/
def exampleBoot : Except BootError State :=
  boot .zero RunParams.specChoice ["ram[0] = 16'b0010000010000101;", "ram[1] = 16'b0100000000000001;"] [4, 1, 1]

/-- The reset state that `exampleBoot` gives. -/
def exampleState : State := resetState .zero RunParams.specChoice [0x2085#16, 0x4001#16] smallL1

theorem exampleBoot_ok : exampleBoot = .ok exampleState := by rfl

theorem witness_DecodeOfEncode : (Instr.lw 2 1 (-64)).wellFormed = true := by decide

theorem witness_DecodeFollowsOpcodeTable :
    (⟨"jr", 0x0008#16, 0xE00F#16⟩ : OpcodeRow) ∈ opcodeTable ∧
    OpcodeRow.covers ⟨"jr", 0x0008#16, 0xE00F#16⟩ 0x1C08#16 = true ∧
    OpcodeRow.covers ⟨"jr", 0x0008#16, 0xE00F#16⟩ 0x2085#16 = false := by
  decide

theorem witness_OpcodeZeroDecodingOrder :
    (0x1C38#16).toNat / 8192 = 0 ∧ (0x1C38#16).toNat % 16 = 8 ∧
    (0x050F#16).toNat / 8192 = 0 ∧ (0x050F#16).toNat % 16 ≠ 8 ∧ (0x050F#16).toNat / 16 % 8 = 0 ∧
    State.reset.params.undefFunc = .nop ∧
    (0x0504#16).toNat / 8192 = 0 ∧ (0x0504#16).toNat / 16 % 8 = 0 ∧ (0x0504#16).toNat % 16 < 5 ∧
    5 ≤ (0x050F#16).toNat % 16 ∧ refusing.params.undefFunc = .refuse ∧
    (0x0534#16).toNat / 8192 = 0 ∧ (0x0534#16).toNat % 16 < 5 := by
  decide

theorem witness_IgnoredFieldsHaveNoEffect :
    (0 : Fin 16) ≠ 8 ∧ (15 : Fin 16) ≠ 8 ∧ State.reset.params.undefFunc = .nop ∧
    (0 : Fin 16).val < 5 ∧ (4 : Fin 16).val < 5 ∧ (5 : Fin 16).val ∈ [5, 6, 7, 9, 10, 11, 12, 13, 14, 15] ∧
    (9 : Fin 16).val ∈ [5, 6, 7, 9, 10, 11, 12, 13, 14, 15] := by
  decide

theorem witness_UnnamedFunctionsAreNoOps : State.reset.params.undefFunc = .nop := by rfl

theorem witness_UnnamedFunctionsRefusedUnderRefuse : refusing.params.undefFunc = .refuse := by rfl

/-- The fields at both ends and both sides of the sign bit, for `addi`, `slti`, `jeq`, `lw` and `sw`. -/
theorem witness_immediate_fields :
    (0 < 128 ∧ 63 < 128 ∧ 64 < 128 ∧ 127 < 128) ∧
    [0, 63, 64, 127].map simm7Of = [0, 63, -64, -1] := by
  decide

theorem witness_MoviSetsTheRegister : 127 < 128 ∧ Inv State.reset := ⟨by decide, by simp, rfl, trivial⟩

theorem witness_JumpOrHalt : (0 : Addr) = State.reset.pc ∧ (1 : Addr) ≠ State.reset.pc := by decide

theorem witness_JrReturnsFromJal :
    exec (.jal 100) State.reset = .next ((State.reset.writeReg linkReg (linkValue 0)).setPc 100) := by rfl

theorem witness_CanonicalMemoriesAreData :
    Memory.wf [(3, 1#16), (8191, 2#16)] = true ∧
    ∀ a, Memory.read [(3, 1#16), (8191, 2#16)] a = Memory.read [(3, 1#16), (8191, 2#16)] a :=
  ⟨by decide, fun _ => rfl⟩

theorem witness_StoredWordIsExecutedNext :
    storing.halted = false ∧ decode (storing.mem.read storing.pc) = .sw 0 1 1 ∧
    effectiveAddress storing 0 1 = storing.pc + 1 ∧ effectiveAddress storing 0 0 ≠ storing.pc + 1 := by
  decide

theorem witness_AddressSplit :
    LegalLevel ⟨64, 4, 4⟩ ∧ (4 : Addr).toNat / 4 = (7 : Addr).toNat / 4 ∧
    rowOf ⟨64, 4, 4⟩ 4 = rowOf ⟨64, 4, 4⟩ 7 ∧ tagOf ⟨64, 4, 4⟩ 4 = tagOf ⟨64, 4, 4⟩ 7 := by
  decide

theorem witness_HitMovesTagToTail : 5 ∉ [1, 2] := by decide

theorem witness_MissInsertsAndEvictsHead :
    7 ∉ [1, 2] ∧ ([1, 2] : TagSet).length = 2 ∧ ([1, 2] : TagSet) = 1 :: [2] ∧ ([1, 2] : TagSet).length < 4 := by
  decide

theorem witness_CacheAccessTouchesOneRow :
    LevelWf warmLevel ∧ warmLevel.hit 10 = true ∧ warmLevel.hit 2 = false ∧ warmLevel.hit 1 = false ∧
    (1 : Nat) ≠ rowOf warmLevel.cfg 10 :=
  ⟨warmLevel_wf, by decide, by decide, by decide, by decide⟩

theorem witness_ObserveByConfiguration : warmLevel.hit 10 = true ∧ warmLevel.hit 2 = false := by decide

theorem witness_RecencyIsFifoWithoutHits : 0 < 2 ∧ [4, 5, 6].Nodup ∧ (4 : Nat) ≠ 5 := by decide

theorem witness_HitTagIsEvictedLast :
    [1, 2].Nodup ∧ [1, 2].length = 2 ∧ 1 ∈ [1, 2] ∧
    ([7].Nodup ∧ (∀ m ∈ [7], m ∉ [1, 2]) ∧ [7].length < 2) ∧
    ([7, 8].Nodup ∧ (∀ m ∈ [7, 8], m ∉ [1, 2]) ∧ [7, 8].length = 2) := by
  decide

theorem witness_InstructionReportsItsAccesses :
    ∃ t, exec (.lw 0 1 18) storing = .next t ∧ reportsOf (.lw 0 1 18) storing = [⟨18, .load, 0⟩] :=
  ⟨_, rfl, by decide⟩

/-- One step of the run of the source's example. -/
theorem witness_run : boot .zero RunParams.specChoice
      ["ram[0] = 16'b0010000010000101;", "ram[1] = 16'b0100000000000001;"] [4, 1, 1] = .ok exampleState ∧
    ∃ t, Reaches exampleState t ∧ t.readReg 1 = 5 ∧ t.pc = 1 ∧ t.halted = false :=
  ⟨exampleBoot_ok, _, .tail (.refl _) (by rfl), by decide, by decide, by decide⟩

theorem witness_TraceIsTheAccessesObserved :
    atWord 0xA001#16 0 [] [] = { State.reset with caches := smallL1, mem := [(0, 0xA001#16)] } ∧
    smallL1.cold.observeAll [] = (smallL1, []) ∧
    ∃ t, step { State.reset with caches := smallL1, mem := [(0, 0xA001#16)] } = .next t ∧ t.accesses = [⟨1, .store, 0⟩] :=
  ⟨by decide, rfl, _, rfl, by decide⟩

theorem witness_CachesNeverChangeTheEngine :
    ({ State.reset with caches := smallL1 } : State).engine = State.reset.engine ∧
    ({ State.reset with caches := smallL1 } : State).params = State.reset.params ∧
    boot .zero RunParams.specChoice [] [4, 1, 1] = .ok (resetState .zero RunParams.specChoice [] smallL1) ∧
    boot .zero RunParams.specChoice [] [] = .ok State.reset :=
  ⟨rfl, rfl, rfl, rfl⟩

theorem witness_StepFetchesDecodesExecutes :
    storing.halted = false ∧ (Instr.sw 0 1 1).wellFormed = true ∧ decode (storing.mem.read storing.pc) = .sw 0 1 1 ∧
    ({ State.reset with halted := true } : State).halted = true := by
  decide

theorem witness_RunningEngineNeverFaults : storing.halted = false ∧ storing.params.undefFunc = .nop := by decide

theorem witness_StepKeepsInvariant : Inv storing ∧ ∃ t, step storing = .next t :=
  ⟨⟨by decide, by decide, ⟨by decide, by decide, fun s hs => by
      have h : s = [] := List.eq_of_mem_replicate (show s ∈ List.replicate 4 [] from hs)
      rw [h]; exact ⟨by decide, by decide, by decide⟩⟩⟩, _, by rfl⟩

theorem witness_OnlySelfJumpHalts :
    exec (.j 0) State.reset = .next State.reset.halt ∧ exec (.j 1) State.reset = .next (State.reset.setPc 1) ∧
    State.reset.halt.halted = true :=
  ⟨rfl, rfl, rfl⟩

theorem witness_OnlySwChangesMemory :
    ∃ t, exec (.sw 0 1 1) storing = .next t ∧ t.mem.read 1 ≠ storing.mem.read 1 :=
  ⟨_, rfl, by decide⟩

theorem witness_FirstBadLineDecides :
    loadLines 8192 [] = .ok [] ∧ parseLine "".toList = none ∧
    parseLine "ram[8193] = 16'b0000000000000000;".toList = some (8193, 0) ∧ 8193 ≠ 8192 + ([] : List String).length ∧
    parseLine "ram[8192] = 16'b0000000000000000;".toList = some (8192 + ([] : List String).length, 0) ∧
    8192 ≤ 8192 + ([] : List String).length := by
  decide

theorem witness_LoaderErrorGoesFirst :
    loadLines 0 [""] = .error (.malformedInputLine "") ∧
    (loadLines 0 [] = .ok [] ∧ checkCacheArgs [8, 2] = .error (.invalidCacheConfiguration [8, 2])) := by
  decide

theorem witness_ReportOnlyAfterHalt :
    State.reset.halt.halted = true ∧ State.reset.halted = false ∧ (127 : Addr).toNat < 128 := by
  decide

end Sys2Proof.Tests
end

/-! SUPPORT. Facts about an instruction, a step and a run that the state's invariants share. -/

namespace Sys2Proof.Machine

/-- A property of the state that every step keeps holds all along a run. -/
theorem Reaches.of_step {P : State → Prop} (hstep : ∀ s t, P s → step s = .next t → P t) {s t : State}
    (hst : Reaches s t) (hs : P s) : P t := by
  induction hst with
  | refl => exact hs
  | tail _ htu ih => exact hstep _ _ ih htu

/-- Advancing goes to the next word (R27). -/
theorem nextWord_advance (s : State) : NextWord s s.advance := by
  simp [NextWord, BitVec.toNat_add]

@[simp] theorem resetState_halted (init : MemInit) (params : RunParams) (image : List Word) (caches : CacheHierarchy) :
    (resetState init params image caches).halted = false := rfl

@[simp] theorem resetState_readReg (init : MemInit) (params : RunParams) (image : List Word) (caches : CacheHierarchy)
    (r : Reg) : (resetState init params image caches).readReg r = 0 := by
  simp [State.readReg, resetState, Vector.get_eq_getElem]

/-! ### Register 0 (R22) -/

@[simp] theorem State.readReg_zero_writeReg (s : State) (r : Reg) (v : Word) :
    (s.writeReg r v).readReg 0 = s.readReg 0 := by
  by_cases h : r = 0
  · simp [h]
  · exact s.readReg_writeReg_of_ne r 0 v (Ne.symm h)

theorem exec_readReg_zero {i : Instr} {s t : State} (h : exec i s = .next t) : t.readReg 0 = s.readReg 0 := by
  rcases exec_cases i s with ⟨d, v, e, -⟩ | ⟨e, -⟩ | ⟨a, e, -⟩ | ⟨-, e⟩ | ⟨a, -, e⟩ | ⟨b, d, imm, -, -, e⟩ |
    ⟨b, r, imm, -, e⟩ | ⟨f, -, e⟩ <;> rw [e] at h <;> cases h
  all_goals simp

theorem step_readReg_zero {s t : State} (h : step s = .next t) : t.readReg 0 = s.readReg 0 :=
  exec_readReg_zero ((step_next_iff s t).mp h).2

theorem Reaches.readReg_zero {s t : State} (hst : Reaches s t) (hs : s.readReg 0 = 0) : t.readReg 0 = 0 :=
  hst.of_step (P := fun u => u.readReg 0 = 0) (fun _ _ hu h => (step_readReg_zero h).trans hu) hs

theorem finish_zero (v : Word) (s : State) : finish 0 v s = .next s.advance := rfl

theorem execLw_zero (addrReg : Reg) (imm : Int) (s : State) : execLw addrReg 0 imm s = .next s.advance := rfl

/-- Every instruction that names register 0 as its destination only advances: the write is skipped, and a load is
elided (R22, R161). -/
theorem exec_of_destination_zero (a b : Reg) (imm : Int) (v : BitVec 7) (s : State) :
    ∀ i ∈ [Instr.add a b 0, .sub a b 0, .or a b 0, .and a b 0, .slt a b 0, .addi a 0 imm, .slti a 0 v, .lw a 0 imm],
      exec i s = .next s.advance := by
  simp only [List.forall_mem_cons]
  exact ⟨finish_zero _ s, finish_zero _ s, finish_zero _ s, finish_zero _ s, finish_zero _ s, finish_zero _ s,
    finish_zero _ s, execLw_zero a imm s, List.forall_mem_nil _⟩

/-- Settles O45: no outcome of `exec_cases` touches register 0, a run keeps that by induction on its steps, and a
destination 0 leaves a mere advance. -/
theorem registerZeroIsNeverWritten : Obligations.RegisterZeroIsNeverWritten := by
  unfold Obligations.RegisterZeroIsNeverWritten
  refine ⟨fun i s t => exec_readReg_zero, fun init params file args s t hboot hst => hst.readReg_zero ?_,
    fun a b imm v s i hi => ?_⟩
  · obtain ⟨image, caches, -, -, rfl⟩ := boot_ok hboot
    exact resetState_readReg ..
  · exact ⟨s.advance, exec_of_destination_zero a b imm v s i hi, fun _ => rfl, nextWord_advance s⟩

/-! ### The halt flag (R29, R146) -/

/-- The same state with the halt flag `b`. -/
def State.withHalted (s : State) (b : Bool) : State := { s with halted := b }

/-- The same outcome with the halt flag `b` in the next state, if there is one. -/
def outcomeWithHalted (b : Bool) : Host.Outcome State Fault Refusal → Host.Outcome State Fault Refusal
  | .next t => .next (t.withHalted b)
  | .fault f => .fault f
  | .refused r => .refused r

theorem State.withHalted_halted_self (s : State) : s.withHalted s.halted = s := rfl

theorem State.writeReg_withHalted (s : State) (b : Bool) (r : Reg) (v : Word) :
    (s.withHalted b).writeReg r v = (s.writeReg r v).withHalted b := by
  unfold State.writeReg; split <;> rfl

theorem finish_withHalted (d : Reg) (v : Word) (s : State) (b : Bool) :
    finish d v (s.withHalted b) = outcomeWithHalted b (finish d v s) := by
  unfold finish; rw [State.writeReg_withHalted]; rfl

theorem unnamedFunction_withHalted (f : Nat) (s : State) (b : Bool) :
    unnamedFunction f (s.withHalted b) = outcomeWithHalted b (unnamedFunction f s) := by
  have hp : (s.withHalted b).params = s.params := rfl
  unfold unnamedFunction
  rw [hp]
  cases s.params.undefFunc <;> rfl

theorem execJ_withHalted (target : Addr) (s : State) (b : Bool) :
    execJ target (s.withHalted b) = outcomeWithHalted (isSelfJump (.j target) s || b) (execJ target s) := by
  have hpc : (s.withHalted b).pc = s.pc := rfl
  unfold execJ isSelfJump
  rw [hpc]
  by_cases h : target = s.pc
  · simp only [h, if_true, beq_self_eq_true, Bool.true_or]; rfl
  · simp only [h, if_false, beq_eq_false_iff_ne.mpr h, Bool.false_or]; rfl

theorem execJal_withHalted (target : Addr) (s : State) (b : Bool) :
    execJal target (s.withHalted b) = outcomeWithHalted b (execJal target s) := by
  unfold execJal; rw [State.writeReg_withHalted]; rfl

theorem execJeq_withHalted (regA regB : Reg) (rel : Int) (s : State) (b : Bool) :
    execJeq regA regB rel (s.withHalted b) = outcomeWithHalted b (execJeq regA regB rel s) := by
  have hr : ∀ r, (s.withHalted b).readReg r = s.readReg r := fun _ => rfl
  unfold execJeq
  rw [hr, hr]
  split <;> rfl

theorem execLw_withHalted (addrReg dst : Reg) (imm : Int) (s : State) (b : Bool) :
    execLw addrReg dst imm (s.withHalted b) = outcomeWithHalted b (execLw addrReg dst imm s) := by
  simp only [execLw]
  split
  · rfl
  · rw [State.writeReg_withHalted]; rfl

/-- No instruction reads the halt flag: it is carried to the next state, where a `j` to its own address sets it. -/
theorem exec_withHalted (i : Instr) (s : State) (b : Bool) :
    exec i (s.withHalted b) = outcomeWithHalted (isSelfJump i s || b) (exec i s) := by
  cases i with
  | add | sub | or | and | slt | addi | slti => exact finish_withHalted ..
  | op0Func5 | op0Func6 | op0Func7 | op0Func9 | op0Func10 | op0Func11 | op0Func12 | op0Func13 | op0Func14 | op0Func15 =>
    exact unnamedFunction_withHalted ..
  | jr | sw => rfl
  | j target => exact execJ_withHalted target s b
  | jal target => exact execJal_withHalted target s b
  | jeq regA regB rel => exact execJeq_withHalted regA regB rel s b
  | lw addrReg dst imm => exact execLw_withHalted addrReg dst imm s b

/-- The halt flag after an instruction: it is kept, or set by a `j` to its own address. -/
theorem exec_halted {i : Instr} {s t : State} (h : exec i s = .next t) : t.halted = (isSelfJump i s || s.halted) := by
  have key := exec_withHalted i s s.halted
  rw [State.withHalted_halted_self, h] at key
  exact congrArg State.halted (Host.Outcome.next.inj key)

theorem isSelfJump_iff (i : Instr) (s : State) : isSelfJump i s = true ↔ ∃ target, i = .j target ∧ target = s.pc := by
  cases i <;> simp [isSelfJump]

theorem step_ne_next_of_halted {s : State} (hs : s.halted = true) (t : State) : step s ≠ .next t := by
  intro h
  obtain ⟨hrun, -⟩ := (step_next_iff s t).mp h
  exact Bool.false_ne_true (hrun.symm.trans hs)

/-- Settles O46: an instruction carries the halt flag along without reading it, and only a `j` to its own address
sets it; reset clears it, and `step` stops on it. -/
theorem onlySelfJumpHalts : Obligations.OnlySelfJumpHalts := by
  unfold Obligations.OnlySelfJumpHalts
  refine ⟨fun i s t h => ?_, fun i s t b h => ?_, fun init params file args s hboot => ?_,
    fun s t hs => step_ne_next_of_halted hs t⟩
  · rw [exec_halted h, Bool.or_eq_true, isSelfJump_iff, or_comm]
  · rw [Bool.or_comm]
    exact (exec_withHalted i s b).trans (congrArg _ h)
  · obtain ⟨image, caches, -, -, rfl⟩ := boot_ok hboot
    exact resetState_halted ..

end Sys2Proof.Machine

/-! SUPPORT. The cache hierarchy: how an address splits, what an access does to a level, what an instruction reports,
and that none of it reaches the engine (spec/20_memory.md). -/

namespace Sys2Proof.Machine

/-! ### The hierarchy never changes the engine (R80) -/

/-- The same machine with no cache hierarchy and empty output streams: its engine and its parameters alone. -/
def State.unobserved (s : State) : State :=
  { s with caches := .none, accesses := [], trace := [], summaries := [] }

/-- The same outcome with nothing of the observer in the next state, if there is one. -/
def outcomeUnobserved : Host.Outcome State Fault Refusal → Host.Outcome State Fault Refusal
  | .next t => .next t.unobserved
  | .fault f => .fault f
  | .refused r => .refused r

theorem State.unobserved_eq_iff (s s' : State) :
    s.unobserved = s'.unobserved ↔ s.engine = s'.engine ∧ s.params = s'.params := by
  simp [State.unobserved, State.engine, and_assoc]

theorem outcomeUnobserved_eq_next_iff (o : Host.Outcome State Fault Refusal) (u : State) :
    outcomeUnobserved o = .next u ↔ ∃ t, o = .next t ∧ t.unobserved = u := by
  cases o <;> simp [outcomeUnobserved]

theorem outcomeUnobserved_eq_fault_iff (o : Host.Outcome State Fault Refusal) (f : Fault) :
    outcomeUnobserved o = .fault f ↔ o = .fault f := by
  cases o <;> simp [outcomeUnobserved]

theorem outcomeUnobserved_eq_refused_iff (o : Host.Outcome State Fault Refusal) (r : Refusal) :
    outcomeUnobserved o = .refused r ↔ o = .refused r := by
  cases o <;> simp [outcomeUnobserved]

/-- The engine of an outcome does not depend on what the observer left in it. -/
theorem engineOutcome_unobserved (o : Host.Outcome State Fault Refusal) :
    engineOutcome (outcomeUnobserved o) = engineOutcome o := by
  cases o <;> rfl

theorem State.writeReg_unobserved (s : State) (r : Reg) (v : Word) :
    s.unobserved.writeReg r v = (s.writeReg r v).unobserved := by
  unfold State.writeReg; split <;> rfl

theorem finish_unobserved (d : Reg) (v : Word) (s : State) :
    outcomeUnobserved (finish d v s.unobserved) = outcomeUnobserved (finish d v s) := by
  unfold finish; rw [State.writeReg_unobserved]; rfl

theorem unnamedFunction_unobserved (f : Nat) (s : State) :
    outcomeUnobserved (unnamedFunction f s.unobserved) = outcomeUnobserved (unnamedFunction f s) := by
  have hp : s.unobserved.params = s.params := rfl
  unfold unnamedFunction
  rw [hp]
  cases s.params.undefFunc <;> rfl

theorem execJ_unobserved (target : Addr) (s : State) :
    outcomeUnobserved (execJ target s.unobserved) = outcomeUnobserved (execJ target s) := by
  have hpc : s.unobserved.pc = s.pc := rfl
  unfold execJ
  rw [hpc]
  split <;> rfl

theorem execJal_unobserved (target : Addr) (s : State) :
    outcomeUnobserved (execJal target s.unobserved) = outcomeUnobserved (execJal target s) := by
  unfold execJal; rw [State.writeReg_unobserved]; rfl

theorem execJeq_unobserved (regA regB : Reg) (rel : Int) (s : State) :
    outcomeUnobserved (execJeq regA regB rel s.unobserved) = outcomeUnobserved (execJeq regA regB rel s) := by
  have hr : ∀ r, s.unobserved.readReg r = s.readReg r := fun _ => rfl
  unfold execJeq
  rw [hr, hr]
  split <;> rfl

theorem execLw_unobserved (addrReg dst : Reg) (imm : Int) (s : State) :
    outcomeUnobserved (execLw addrReg dst imm s.unobserved) = outcomeUnobserved (execLw addrReg dst imm s) := by
  simp only [execLw]
  split
  · rfl
  · rw [State.writeReg_unobserved]; rfl

/-- No instruction reads the observer: with it or without it, the engine goes the same way. -/
theorem exec_unobserved (i : Instr) (s : State) :
    outcomeUnobserved (exec i s.unobserved) = outcomeUnobserved (exec i s) := by
  cases i with
  | add | sub | or | and | slt | addi | slti => exact finish_unobserved ..
  | op0Func5 | op0Func6 | op0Func7 | op0Func9 | op0Func10 | op0Func11 | op0Func12 | op0Func13 | op0Func14 | op0Func15 =>
    exact unnamedFunction_unobserved ..
  | jr | sw => rfl
  | j target => exact execJ_unobserved target s
  | jal target => exact execJal_unobserved target s
  | jeq regA regB rel => exact execJeq_unobserved regA regB rel s
  | lw addrReg dst imm => exact execLw_unobserved addrReg dst imm s

theorem step_unobserved (s : State) : outcomeUnobserved (step s.unobserved) = outcomeUnobserved (step s) := by
  have hh : s.unobserved.halted = s.halted := rfl
  have hf : s.unobserved.fetch = s.fetch := rfl
  unfold step cycle
  rw [hh, hf]
  split
  · rfl
  · exact exec_unobserved _ s

/-- Two machines alike but for the observer stay so along every run, and stop for the same reason. -/
theorem runSteps_unobserved_congr (n : Nat) {s s' : State} (h : s.unobserved = s'.unobserved) :
    outcomeUnobserved (runSteps n s) = outcomeUnobserved (runSteps n s') := by
  induction n generalizing s s' with
  | zero => exact congrArg Host.Outcome.next h
  | succ n ih =>
    have hstep : outcomeUnobserved (step s') = outcomeUnobserved (step s) := by
      rw [← step_unobserved s', ← h, step_unobserved s]
    unfold runSteps
    cases hs : step s with
    | next t =>
      rw [hs] at hstep
      obtain ⟨t', hs', ht⟩ := (outcomeUnobserved_eq_next_iff _ _).mp hstep
      rw [hs']
      exact ih ht.symm
    | fault f =>
      rw [hs] at hstep
      rw [(outcomeUnobserved_eq_fault_iff _ _).mp hstep]
    | refused r =>
      rw [hs] at hstep
      rw [(outcomeUnobserved_eq_refused_iff _ _).mp hstep]

theorem engineOutcome_runSteps_congr (n : Nat) {s s' : State} (h : s.unobserved = s'.unobserved) :
    engineOutcome (runSteps n s) = engineOutcome (runSteps n s') := by
  rw [← engineOutcome_unobserved, runSteps_unobserved_congr n h, engineOutcome_unobserved]

/-- Two resets of one image differ in nothing but the observer. -/
theorem boot_unobserved_eq {init : MemInit} {params : RunParams} {file : List String} {args args' : List Int}
    {s s' : State} (h : boot init params file args = .ok s) (h' : boot init params file args' = .ok s') :
    s.unobserved = s'.unobserved := by
  obtain ⟨image, caches, hload, -, rfl⟩ := boot_ok h
  obtain ⟨image', caches', hload', -, rfl⟩ := boot_ok h'
  obtain rfl : image = image' := Except.ok.inj (hload.symm.trans hload')
  rfl

/-- Settles O37: no step reads the observer, so by induction on the steps two machines alike but for it go through the
same engine states; two resets of one image are alike but for it. -/
theorem cachesNeverChangeTheEngine : Obligations.CachesNeverChangeTheEngine := by
  unfold Obligations.CachesNeverChangeTheEngine
  refine ⟨fun s s' n he hp => ?_, fun init params file args args' s s' n h h' => ?_⟩
  · exact engineOutcome_runSteps_congr n ((s.unobserved_eq_iff s').mpr ⟨he, hp⟩)
  · exact engineOutcome_runSteps_congr n (boot_unobserved_eq h h')

/-! ### Row and tag of an address (R66) -/

/-- A legal level has a row: its size is a positive multiple of the words in a row. -/
theorem LegalLevel.numRows_pos {c : LevelConfig} (h : LegalLevel c) : 0 < numRows c := by
  obtain ⟨hsize, hassoc, hblock, hdvd⟩ := h
  exact Nat.div_pos (Nat.le_of_dvd hsize (Nat.dvd_of_mod_eq_zero hdvd)) (Nat.mul_pos hblock hassoc)

theorem rowOf_lt_numRows {c : LevelConfig} (h : LegalLevel c) (a : Addr) : rowOf c a < numRows c :=
  Nat.mod_lt _ h.numRows_pos

theorem tagOf_le (c : LevelConfig) (a : Addr) : tagOf c a ≤ 8191 / (c.blockSize * numRows c) := by
  have ha : a.toNat ≤ 8191 := Nat.le_of_lt_succ a.isLt
  calc tagOf c a = a.toNat / (c.blockSize * numRows c) := Nat.div_div_eq_div_mul ..
    _ ≤ 8191 / (c.blockSize * numRows c) := Nat.div_le_div_right ha

/-- Row and tag are the remainder and the quotient of the block, so together they determine it. -/
theorem blockOf_eq_iff (c : LevelConfig) (a b : Addr) :
    blockOf c a = blockOf c b ↔ rowOf c a = rowOf c b ∧ tagOf c a = tagOf c b := by
  constructor
  · intro h
    exact ⟨congrArg (· % numRows c) h, congrArg (· / numRows c) h⟩
  · rintro ⟨hrow, htag⟩
    calc blockOf c a = numRows c * tagOf c a + rowOf c a := (Nat.div_add_mod ..).symm
      _ = numRows c * tagOf c b + rowOf c b := by rw [hrow, htag]
      _ = blockOf c b := Nat.div_add_mod ..

/-- Settles O28: row and tag are remainder and quotient of the block by `numRows`, which is positive at a legal
level. -/
theorem addressSplit : Obligations.AddressSplit := by
  unfold Obligations.AddressSplit
  intro c a b hc
  exact ⟨rfl, rfl, rowOf_lt_numRows hc a, tagOf_le c a, (blockOf_eq_iff c a b).mp,
    fun hrow htag => (blockOf_eq_iff c a b).mpr ⟨hrow, htag⟩⟩

/-! ### One access to a level (R67 to R69) -/

theorem TagSet.touch_eq (assoc : Nat) (s : TagSet) (t : Nat) :
    TagSet.touch assoc s t =
      if t ∈ s then s.erase t ++ [t] else if s.length = assoc then s.tail ++ [t] else s ++ [t] := by
  rcases TagSet.touch_cases assoc s t with ⟨ht, e⟩ | ⟨ht, hfull, e⟩ | ⟨ht, hfull, e⟩
  · rw [e, if_pos ht]
  · rw [e, if_neg ht, if_pos hfull]
  · rw [e, if_neg ht, if_neg hfull]

theorem TagSet.touch_of_mem {assoc : Nat} {s : TagSet} {t : Nat} (h : t ∈ s) :
    TagSet.touch assoc s t = s.erase t ++ [t] := by
  rw [TagSet.touch_eq, if_pos h]

theorem LevelWf.rowOf_lt {l : CacheLevel} (h : LevelWf l) (a : Addr) : rowOf l.cfg a < l.rows.length :=
  h.rows ▸ rowOf_lt_numRows h.legal a

theorem CacheLevel.hit_iff (l : CacheLevel) (a : Addr) :
    l.hit a = true ↔ tagOf l.cfg a ∈ l.tagSet (rowOf l.cfg a) :=
  decide_eq_true_iff

/-- Settles O31: the row of an address is one of a well-formed level's, and an access sets that row to its Tag Set
after the lookup and no other. -/
theorem cacheAccessTouchesOneRow : Obligations.CacheAccessTouchesOneRow := by
  unfold Obligations.CacheAccessTouchesOneRow
  intro l a hl
  have htouch := fun row => l.tagSet_touch a row (hl.rowOf_lt a)
  refine ⟨l.hit_iff a, ?_, fun row hrow => ?_, l.touch_cfg a⟩
  · rw [htouch, if_pos rfl, TagSet.touch_eq]
  · rw [htouch, if_neg hrow]

/-- Settles O29: erasing the tag's first occurrence leaves what stands before and after it in order. -/
theorem hitMovesTagToTail : Obligations.HitMovesTagToTail := by
  unfold Obligations.HitMovesTagToTail
  intro assoc t older newer h
  have hmem : t ∈ older ++ t :: newer := List.mem_append_right older List.mem_cons_self
  rw [TagSet.touch_of_mem hmem, List.erase_append_right _ h, List.erase_cons_head]

/-! ### The accesses an instruction reports (R60, R163) -/

@[simp] theorem CacheHierarchy.observeAll_singleton (h : CacheHierarchy) (acc : Access) :
    h.observeAll [acc] = h.observe acc := by
  simp [CacheHierarchy.observeAll]

/-- The accesses `accs` were reported, and each was processed whole by the hierarchy, between the two states. -/
def Reported (s t : State) (accs : List Access) : Prop :=
  t.accesses = s.accesses ++ accs ∧
    t.caches = (s.caches.observeAll accs).1 ∧
    t.trace = s.trace ++ (s.caches.observeAll accs).2

theorem NoReport.reported_nil {s t : State} (h : NoReport s t) : Reported s t [] := by
  obtain ⟨hcaches, haccesses, htrace⟩ := h
  simp [Reported, hcaches, haccesses, htrace]

theorem OneReport.reported_singleton {s t : State} {acc : Access} (h : OneReport s t acc) : Reported s t [acc] := by
  obtain ⟨hcaches, haccesses, htrace⟩ := h
  simp [Reported, hcaches, haccesses, htrace]

theorem reportsOf_lw {dst : Reg} (h : dst ≠ 0) (addrReg : Reg) (imm : Int) (s : State) :
    reportsOf (.lw addrReg dst imm) s = [⟨effectiveAddress s addrReg imm, .load, s.pc⟩] :=
  if_neg h

theorem noReport_writeReg_setPc (s : State) (r : Reg) (v : Word) (a : Addr) :
    NoReport s ((s.writeReg r v).setPc a) := by
  simp [NoReport]

theorem oneReport_load (s : State) (r : Reg) (v : Word) (a : Addr) :
    OneReport s (((s.writeReg r v).report a .load).advance) ⟨a, .load, s.pc⟩ := by
  simp [OneReport]

theorem exec_reported {i : Instr} {s t : State} (h : exec i s = .next t) : Reported s t (reportsOf i s) := by
  rcases exec_cases i s with ⟨d, v, e, hr, -⟩ | ⟨e, hr, -⟩ | ⟨a, e, hr, -⟩ | ⟨rfl, e⟩ | ⟨a, rfl, e⟩ |
    ⟨b, d, imm, rfl, hd, e⟩ | ⟨b, r, imm, rfl, e⟩ | ⟨f, -, e⟩ <;> rw [e] at h <;> cases h
  · rw [hr]; exact NoReport.reported_nil (noReport_writeReg_setPc s d v _)
  · rw [hr]; exact NoReport.reported_nil ⟨rfl, rfl, rfl⟩
  · rw [hr]; exact NoReport.reported_nil ⟨rfl, rfl, rfl⟩
  · exact NoReport.reported_nil ⟨rfl, rfl, rfl⟩
  · exact NoReport.reported_nil (noReport_writeReg_setPc s linkReg _ a)
  · rw [reportsOf_lw hd]; exact OneReport.reported_singleton (oneReport_load s d _ _)
  · exact OneReport.reported_singleton ⟨rfl, rfl, rfl⟩

/-- Settles O35: of the outcomes of `exec_cases` only a load with a destination and a store report, one access each. -/
theorem instructionReportsItsAccesses : Obligations.InstructionReportsItsAccesses := by
  unfold Obligations.InstructionReportsItsAccesses
  intro i s t h
  exact exec_reported h

end Sys2Proof.Machine

/-! SUPPORT. Arithmetic, logic and compare (spec/40_arith.md): the words of formats RRR and RRI by their fields, the
effect that every register result shares, and the numbers the results stand for. -/

namespace Sys2Proof.Machine

/-! ### From the word to the instruction (R91, R92, R98, R99) -/

theorem decode_of_opcodeField_zero {w : Word} (h : opcodeField w = 0) : decode w = decodeFunc w := by
  unfold decode; rw [h]

/-- The five operations of opcode 0 by their function codes (R99). -/
def namedRRR (a b d : Reg) : Fin 5 → Instr :=
  ![.add a b d, .sub a b d, .or a b d, .and a b d, .slt a b d]

/-- The fields of a word of format RRR laid out by its numbers (R91). -/
theorem field_wordRRR (a b d : Reg) {f : Nat} (hf : f < 16) :
    opcodeField (wordRRR a b d f) = 0 ∧ regField (wordRRR a b d f) 10 = a ∧ regField (wordRRR a b d f) 7 = b ∧
      regField (wordRRR a b d f) 4 = d ∧ (funcField (wordRRR a b d f)).val = f := by
  obtain ⟨hop, ha, hb, hd, hfunc⟩ := field_encodeRRR a b d (BitVec.ofFin ⟨f, hf⟩)
  rw [← wordRRR_eq a b d ⟨f, hf⟩] at hop ha hb hd hfunc
  exact ⟨hop, ha, hb, hd, congrArg Fin.val hfunc⟩

/-- The words of format RRR with function code 0 to 4 are the five named operations. -/
theorem decode_wordRRR_named (a b d : Reg) (f : Fin 5) : decode (wordRRR a b d f.val) = namedRRR a b d f := by
  obtain ⟨hop, ha, hb, hd, hfunc⟩ := field_wordRRR a b d (f := f.val) (by omega)
  rw [decode_of_opcodeField_zero hop, decodeFunc, ha, hb, hd, hfunc]
  fin_cases f <;> rfl

/-- The fields of a word of format RRI laid out by its numbers (R92). -/
theorem field_wordRRI {op : Nat} (hop : op < 8) (a b : Reg) {k : Nat} (hk : k < 128) :
    opcodeField (wordRRI op a b k) = ⟨op, hop⟩ ∧ regField (wordRRI op a b k) 10 = a ∧
      regField (wordRRI op a b k) 7 = b ∧ field (wordRRI op a b k) 0 7 = BitVec.ofNat 7 k := by
  rw [wordRRI_eq ⟨op, hop⟩ a b k hk]
  exact field_encodeRRI (BitVec.ofFin ⟨op, hop⟩) a b (BitVec.ofNat 7 k)

theorem decode_wordRRI_addi (a d : Reg) {k : Nat} (hk : k < 128) :
    decode (wordRRI 1 a d k) = .addi a d (simm7Of k) := by
  obtain ⟨hop, ha, hd, himm⟩ := field_wordRRI (op := 1) (by decide) a d hk
  rw [decode, hop, ha, hd, himm, simm7_ofNat k hk]

theorem decode_wordRRI_slti (a d : Reg) {k : Nat} (hk : k < 128) :
    decode (wordRRI 7 a d k) = .slti a d (BitVec.ofNat 7 k) := by
  obtain ⟨hop, ha, hd, himm⟩ := field_wordRRI (op := 7) (by decide) a d hk
  rw [decode, hop, ha, hd, himm]

/-! ### The effect of a register result (R22, R27) -/

/-- Writing a register and advancing changes the number in that register, unless it is register 0, and no other. -/
theorem onlyRegister_writeReg_advance {v : Word} {n : Int} (hv : (v.toNat : Int) = n) (d : Reg) (s : State) :
    OnlyRegister s (s.writeReg d v).advance d n := by
  refine ⟨fun hd => ?_, fun hd => ?_, fun r hr => ?_⟩
  · rw [State.readReg_advance, State.readReg_writeReg_same s d v hd, hv]
  · rw [hd, State.writeReg_zero, State.readReg_advance]
  · rw [State.readReg_advance, State.readReg_writeReg_of_ne s d r v hr]

/-- An instruction that ends in a register result writes its number, goes to the next word and leaves the rest of the
machine as it was. -/
theorem exec_of_finish {i : Instr} {s : State} {d : Reg} {v : Word} {n : Int} (hexec : exec i s = finish d v s)
    (hv : (v.toNat : Int) = n) :
    ∃ t, exec i s = .next t ∧ OnlyRegister s t d n ∧ NextWord s t ∧ SameMemory s t ∧ SameRun s t ∧ NoReport s t := by
  refine ⟨(s.writeReg d v).advance, hexec, onlyRegister_writeReg_advance hv d s, ?_, fun a => ?_, ?_, ?_⟩
  · simpa only [NextWord, State.writeReg_pc] using nextWord_advance (s.writeReg d v)
  · simp
  · simp [SameRun]
  · exact noReport_writeReg_setPc s d v _

/-! ### The results as numbers (R120 to R127) -/

theorem word_add_toNat (v w : Word) : ((v + w).toNat : Int) = (v.toNat + w.toNat : Int) % 65536 := by
  rw [BitVec.toNat_add]; omega

theorem word_sub_toNat (v w : Word) : ((v - w).toNat : Int) = (v.toNat - w.toNat : Int) % 65536 := by
  have hw := w.isLt
  rw [BitVec.toNat_sub]; omega

/-- The unsigned comparison with a word that stands for the number `n` (R130). -/
theorem lessThan_toNat_int (v : Word) {w : Word} {n : Int} (hw : (w.toNat : Int) = n) :
    ((lessThan v w).toNat : Int) = if (v.toNat : Int) < n then 1 else 0 := by
  rw [lessThan_toNat, ← hw]
  simp

theorem uimm16_sext_toNat {k : Nat} (hk : k < 128) :
    ((uimm16 .sext (BitVec.ofNat 7 k)).toNat : Int) = simm7Of k % 65536 := by
  unfold uimm16
  rw [simm7_ofNat k hk, BitVec.toNat_ofInt]
  omega

theorem uimm16_zext_toNat {k : Nat} (hk : k < 128) : ((uimm16 .zext (BitVec.ofNat 7 k)).toNat : Int) = k := by
  unfold uimm16
  rw [BitVec.toNat_ofNat, BitVec.toNat_ofNat]
  omega

/-! ### The instructions -/

/-- Settles O7: `add` ends in the register result `v + w`, a sum modulo 65536. -/
theorem addWritesSumModulo65536 : Obligations.AddWritesSumModulo65536 := by
  unfold Obligations.AddWritesSumModulo65536
  intro a b d s
  exact ⟨decode_wordRRR_named a b d 0, exec_of_finish rfl (word_add_toNat _ _)⟩

/-- Settles O8: `sub` ends in the register result `v - w`, a difference of integers modulo 65536. -/
theorem subWritesDifferenceModulo65536 : Obligations.SubWritesDifferenceModulo65536 := by
  unfold Obligations.SubWritesDifferenceModulo65536
  intro a b d s
  exact ⟨decode_wordRRR_named a b d 1, exec_of_finish rfl (word_sub_toNat _ _)⟩

/-- Settles O9: `or` ends in a register result, and the OR of two words is the OR of their numbers. -/
theorem orWritesBitwiseOr : Obligations.OrWritesBitwiseOr := by
  unfold Obligations.OrWritesBitwiseOr
  intro a b d s
  exact ⟨decode_wordRRR_named a b d 2, exec_of_finish rfl (congrArg Nat.cast (BitVec.toNat_or ..))⟩

/-- Settles O10: `and` ends in a register result, and the AND of two words is the AND of their numbers. -/
theorem andWritesBitwiseAnd : Obligations.AndWritesBitwiseAnd := by
  unfold Obligations.AndWritesBitwiseAnd
  intro a b d s
  exact ⟨decode_wordRRR_named a b d 3, exec_of_finish rfl (congrArg Nat.cast (BitVec.toNat_and ..))⟩

/-- Settles O11: `slt` ends in the register result `lessThan`, which compares the words as unsigned numbers. -/
theorem sltWritesUnsignedComparison : Obligations.SltWritesUnsignedComparison := by
  unfold Obligations.SltWritesUnsignedComparison
  intro a b d s
  refine ⟨decode_wordRRR_named a b d 4, exec_of_finish rfl ?_⟩
  simpa only [Nat.cast_lt] using lessThan_toNat_int (s.readReg a) (w := s.readReg b) rfl

/-- Settles O15: the field of `addi` is read as `simm7`, and the sum is taken on the integers modulo 65536. -/
theorem addiAddsSignedImmediate : Obligations.AddiAddsSignedImmediate := by
  unfold Obligations.AddiAddsSignedImmediate
  intro a d k s hk
  exact ⟨decode_wordRRI_addi a d hk, exec_of_finish rfl (addImmediate_toNat _ _)⟩

/-- Settles O17: `slti` compares with its immediate as an unsigned number, for each value of `SLTI_IMM`. -/
theorem sltiComparesUnsigned : Obligations.SltiComparesUnsigned := by
  unfold Obligations.SltiComparesUnsigned
  intro a d k s hk
  have hexec : exec (.slti a d (BitVec.ofNat 7 k)) s =
      finish d (lessThan (s.readReg a) (uimm16 s.params.sltiImm (BitVec.ofNat 7 k))) s := rfl
  refine ⟨decode_wordRRI_slti a d hk, exec_of_finish hexec ?_⟩
  cases s.params.sltiImm with
  | sext => exact lessThan_toNat_int _ (uimm16_sext_toNat hk)
  | zext => exact lessThan_toNat_int _ (uimm16_zext_toNat hk)

end Sys2Proof.Machine

/-! SUPPORT. Control transfer (spec/41_control.md): the words of format J by their fields, the outcomes of each jump,
and what a change of the pc alone leaves as it was. -/

namespace Sys2Proof.Machine

/-! ### From the word to the instruction (R92, R93, R98) -/

/-- The fields of a word of format J laid out by its numbers (R93). -/
theorem field_wordJ {op : Nat} (hop : op < 8) (target : Addr) :
    opcodeField (wordJ op target) = ⟨op, hop⟩ ∧ field (wordJ op target) 0 13 = target := by
  rw [wordJ_eq ⟨op, hop⟩ target]
  exact field_encodeJ (BitVec.ofFin ⟨op, hop⟩) target

theorem decode_wordJ_j (target : Addr) : decode (wordJ 2 target) = .j target := by
  obtain ⟨hop, htarget⟩ := field_wordJ (op := 2) (by decide) target
  rw [decode, hop, htarget]

theorem decode_wordJ_jal (target : Addr) : decode (wordJ 3 target) = .jal target := by
  obtain ⟨hop, htarget⟩ := field_wordJ (op := 3) (by decide) target
  rw [decode, hop, htarget]

theorem decode_wordRRI_jeq (a b : Reg) {k : Nat} (hk : k < 128) :
    decode (wordRRI 6 a b k) = .jeq a b (simm7Of k) := by
  obtain ⟨hop, ha, hb, himm⟩ := field_wordRRI (op := 6) (by decide) a b hk
  rw [decode, hop, ha, hb, himm, simm7_ofNat k hk]

/-! ### The outcome of each instruction (R141 to R143) -/

theorem exec_j_self {target : Addr} {s : State} (h : target = s.pc) : exec (.j target) s = .next s.halt :=
  congrArg Host.Outcome.next (if_pos h)

theorem exec_j_of_ne {target : Addr} {s : State} (h : target ≠ s.pc) :
    exec (.j target) s = .next (s.setPc target) :=
  congrArg Host.Outcome.next (if_neg h)

theorem exec_jal (target : Addr) (s : State) :
    exec (.jal target) s = .next ((s.writeReg linkReg (linkValue s.pc)).setPc target) := rfl

theorem exec_jeq_of_eq {a b : Reg} {s : State} (h : s.readReg a = s.readReg b) (rel : Int) :
    exec (.jeq a b rel) s = .next (s.setPc (branchTarget s.pc rel)) :=
  congrArg Host.Outcome.next (if_pos h)

theorem exec_jeq_of_ne {a b : Reg} {s : State} (h : s.readReg a ≠ s.readReg b) (rel : Int) :
    exec (.jeq a b rel) s = .next s.advance :=
  congrArg Host.Outcome.next (if_neg h)

/-! ### What a jump leaves as it was -/

/-- A change of the pc alone leaves the rest of the machine as it was. -/
theorem setPc_frame (s : State) (a : Addr) :
    SameRegisters s (s.setPc a) ∧ SameMemory s (s.setPc a) ∧ SameRun s (s.setPc a) ∧ NoReport s (s.setPc a) :=
  ⟨fun _ => rfl, fun _ => rfl, ⟨rfl, rfl, rfl⟩, ⟨rfl, rfl, rfl⟩⟩

/-- Advancing is a change of the pc alone. -/
theorem advance_frame (s : State) :
    SameRegisters s s.advance ∧ SameMemory s s.advance ∧ SameRun s s.advance ∧ NoReport s s.advance :=
  setPc_frame s (s.pc + 1)

/-- Reading a register does not depend on the pc, so a register result followed by a jump changes the same register
as one followed by an advance. -/
theorem onlyRegister_writeReg_setPc {v : Word} {n : Int} (hv : (v.toNat : Int) = n) (d : Reg) (s : State) (a : Addr) :
    OnlyRegister s ((s.writeReg d v).setPc a) d n :=
  onlyRegister_writeReg_advance hv d s

theorem sameMemory_writeReg_setPc (s : State) (d : Reg) (v : Word) (a : Addr) :
    SameMemory s ((s.writeReg d v).setPc a) := by
  simp [SameMemory]

theorem sameRun_writeReg_setPc (s : State) (d : Reg) (v : Word) (a : Addr) :
    SameRun s ((s.writeReg d v).setPc a) := by
  simp [SameRun]

/-! ### The numbers (R27, R142) -/

theorem linkValue_toNat_int (pc : Addr) : ((linkValue pc).toNat : Int) = (pc.toNat + 1 : Int) % 8192 := by
  exact_mod_cast linkValue_toNat pc

theorem advance_pc_toNat_int (s : State) : (s.advance.pc.toNat : Int) = (s.pc.toNat + 1 : Int) % 8192 := by
  exact_mod_cast nextWord_advance s

/-! ### The instructions -/

/-- Settles O18: a `j` to the pc sets the halt flag alone, any other `j` the pc alone. -/
theorem jumpOrHalt : Obligations.JumpOrHalt := by
  unfold Obligations.JumpOrHalt
  intro target s
  refine ⟨decode_wordJ_j target, fun hself => ?_, fun hne => ?_⟩
  · exact ⟨s.halt, exec_j_self hself, rfl, rfl, fun _ => rfl, fun _ => rfl, ⟨rfl, rfl, rfl⟩, rfl, rfl⟩
  · exact ⟨s.setPc target, exec_j_of_ne hne, rfl, setPc_frame s target⟩

/-- Settles O19: `jal` is a register result in the link register, followed by a jump in place of the advance. -/
theorem jalLinksAndJumps : Obligations.JalLinksAndJumps := by
  unfold Obligations.JalLinksAndJumps
  intro target s
  exact ⟨decode_wordJ_jal target, _, exec_jal target s, rfl,
    onlyRegister_writeReg_setPc (linkValue_toNat_int s.pc) linkReg s target,
    sameMemory_writeReg_setPc s linkReg _ target, sameRun_writeReg_setPc s linkReg _ target,
    noReport_writeReg_setPc s linkReg _ target⟩

/-- Settles O21: two words are equal exactly when their numbers are, and either way `jeq` changes the pc alone. -/
theorem jeqBranchesOnEqual : Obligations.JeqBranchesOnEqual := by
  unfold Obligations.JeqBranchesOnEqual
  intro a b k s hk
  refine ⟨decode_wordRRI_jeq a b hk, ?_⟩
  by_cases heq : s.readReg a = s.readReg b
  · refine ⟨_, exec_jeq_of_eq heq _, ?_, setPc_frame s _⟩
    rw [if_pos (congrArg BitVec.toNat heq)]
    exact branchTarget_toNat s.pc (simm7Of k)
  · refine ⟨_, exec_jeq_of_ne heq _, ?_, advance_frame s⟩
    rw [if_neg (mt BitVec.eq_of_toNat_eq heq)]
    exact advance_pc_toNat_int s

end Sys2Proof.Machine

/-! SUPPORT. Load and store (spec/42_loadstore.md): the words of `lw` and `sw` by their fields, the effective address
as a number, and what each instruction does. -/

namespace Sys2Proof.Machine

/-! ### From the word to the instruction (R92, R98) -/

theorem decode_wordRRI_lw (b d : Reg) {k : Nat} (hk : k < 128) :
    decode (wordRRI 4 b d k) = .lw b d (simm7Of k) := by
  obtain ⟨hop, hb, hd, himm⟩ := field_wordRRI (op := 4) (by decide) b d hk
  rw [decode, hop, hb, hd, himm, simm7_ofNat k hk]

theorem decode_wordRRI_sw (b r : Reg) {k : Nat} (hk : k < 128) :
    decode (wordRRI 5 b r k) = .sw b r (simm7Of k) := by
  obtain ⟨hop, hb, hr, himm⟩ := field_wordRRI (op := 5) (by decide) b r hk
  rw [decode, hop, hb, hr, himm, simm7_ofNat k hk]

/-- The effective address, modulo 8192 (R160). -/
theorem effectiveAddress_toNat (s : State) (b : Reg) (imm : Int) :
    ((effectiveAddress s b imm).toNat : Int) = ((s.readReg b).toNat + imm) % 8192 := by
  unfold effectiveAddress; rw [BitVec.toNat_ofInt]; omega

/-! ### The outcome of each instruction (R161, R162) -/

/-- A load into a register other than 0 is a register result and one report. -/
theorem exec_lw_of_ne {d : Reg} (hd : d ≠ 0) (b : Reg) (imm : Int) (s : State) :
    ∃ t, exec (.lw b d imm) s = .next t ∧
      OnlyRegister s t d (s.mem.read (effectiveAddress s b imm)).toNat ∧
      NextWord s t ∧ SameMemory s t ∧ SameRun s t ∧ OneReport s t ⟨effectiveAddress s b imm, .load, s.pc⟩ := by
  refine ⟨_, congrArg Host.Outcome.next (if_neg hd), onlyRegister_writeReg_advance rfl d s, ?_, fun a => ?_, ?_,
    oneReport_load s d _ _⟩
  · simpa only [NextWord, State.advance_pc, State.report_pc, State.writeReg_pc] using nextWord_advance s
  · simp
  · simp [SameRun]

theorem exec_sw (b r : Reg) (imm : Int) (s : State) :
    exec (.sw b r imm) s =
      .next ((s.store (effectiveAddress s b imm) (s.readReg r)).report (effectiveAddress s b imm) .store).advance :=
  rfl

theorem oneReport_store (s : State) (v : Word) (a : Addr) :
    OneReport s ((s.store a v).report a .store).advance ⟨a, .store, s.pc⟩ :=
  ⟨rfl, rfl, rfl⟩

/-! ### The instructions -/

/-- Settles O23: with `dst = 0` a load is a mere advance; otherwise it is a register result and one report. -/
theorem lwLoadsAndReports : Obligations.LwLoadsAndReports := by
  unfold Obligations.LwLoadsAndReports
  intro b d k s hk
  refine ⟨decode_wordRRI_lw b d hk, effectiveAddress_toNat s b _, ?_⟩
  by_cases hd : d = 0
  · subst hd
    obtain ⟨-, hmem, hrun, hreport⟩ := advance_frame s
    have hreg : OnlyRegister s s.advance 0 (s.mem.read (effectiveAddress s b (simm7Of k))).toNat :=
      onlyRegister_writeReg_advance rfl 0 s
    exact ⟨s.advance, execLw_zero b _ s, hreg, nextWord_advance s, hmem, hrun, fun _ => hreport, fun h => absurd rfl h⟩
  · obtain ⟨t, hexec, hreg, hpc, hmem, hrun, hreport⟩ := exec_lw_of_ne hd b (simm7Of k) s
    exact ⟨t, hexec, hreg, hpc, hmem, hrun, fun h => absurd h hd, fun _ => hreport⟩

/-- Settles O24: a store changes the addressed word alone, by what a read gives after a write, and is reported once. -/
theorem swStoresAndReports : Obligations.SwStoresAndReports := by
  unfold Obligations.SwStoresAndReports
  intro b r k s hk
  exact ⟨decode_wordRRI_sw b r hk, effectiveAddress_toNat s b _, _, exec_sw b r _ s, State.load_store_same s _ _,
    fun a ha => State.load_store_of_ne s _ a _ ha, nextWord_advance s, fun _ => rfl, ⟨rfl, rfl, rfl⟩,
    oneReport_store s _ _⟩

end Sys2Proof.Machine

/-! SUPPORT. Exceptions (spec/60_exceptions.md): what an instruction, and so a step of a running engine, can answer. -/

namespace Sys2Proof.Machine

/-- An instruction answers a next state, unless `UNDEF_FUNC = refuse` refuses its unnamed function code (R103). -/
theorem exec_next_or_refused (i : Instr) (s : State) :
    (∃ t, exec i s = .next t) ∨ (s.params.undefFunc = .refuse ∧ ∃ r, exec i s = .refused r) := by
  rcases exec_cases i s with ⟨_, _, h, -⟩ | ⟨h, -⟩ | ⟨_, h, -⟩ | ⟨-, h⟩ | ⟨_, -, h⟩ | ⟨_, _, _, -, -, h⟩ |
    ⟨_, _, _, -, h⟩ | ⟨f, hp, h⟩
  on_goal 8 => exact .inr ⟨hp, _, h⟩
  all_goals exact .inl ⟨_, h⟩

/-- No instruction raises an exception (R180). -/
theorem exec_ne_fault (i : Instr) (s : State) (f : Fault) : exec i s ≠ .fault f := by
  rcases exec_next_or_refused i s with ⟨t, h⟩ | ⟨-, r, h⟩ <;> simp [h]

/-- Under `UNDEF_FUNC = nop` every instruction answers a next state. -/
theorem exec_next_of_nop {s : State} (hnop : s.params.undefFunc = .nop) (i : Instr) : ∃ t, exec i s = .next t := by
  rcases exec_next_or_refused i s with h | ⟨hrefuse, -⟩
  · exact h
  · rw [hnop] at hrefuse; cases hrefuse

/-- Settles O40: a running engine's step is its decoded instruction, and `cycle` alone raises the fault of a halted one. -/
theorem runningEngineNeverFaults : Obligations.RunningEngineNeverFaults := by
  unfold Obligations.RunningEngineNeverFaults
  intro s hrun
  rw [step_running s hrun]
  exact ⟨exec_ne_fault _ s, fun hnop => exec_next_of_nop hnop _⟩

end Sys2Proof.Machine

/-! SUPPORT. The step (spec/70_reset_and_hazards.md): what a running engine runs, in terms of the memory. -/

namespace Sys2Proof.Machine

/-- A fetch reads the word that the memory holds at the program counter. -/
theorem fetch_eq_read (s : State) : s.fetch = s.mem.read s.pc := rfl

/-- Settles O38: a running engine runs the word it fetches, and a halted one makes no step (R205). -/
theorem stepFetchesDecodesExecutes : Obligations.StepFetchesDecodesExecutes := by
  unfold Obligations.StepFetchesDecodesExecutes
  intro s
  have hstep (hrun : s.halted = false) : step s = exec (decode (s.mem.read s.pc)) s := by
    rw [step_running s hrun, fetch_eq_read]
  refine ⟨hstep, fun i hrun _ hdecode => ?_, fun hhalt => step_ne_next_of_halted hhalt⟩
  rw [hstep hrun, hdecode]

end Sys2Proof.Machine

/-! SUPPORT. The three formats of an instruction word (spec/30_encoding.md R91 to R93), decoded and encoded, and the
rows of the opcode table. -/

namespace Sys2Proof

/-! ### The instructions of each format (R98, R99) -/

/-- Opcode 0 by its function code, from its three register fields (R99); `jr` ignores the lower two (R101). -/
def opcodeZeroInstr (a b d : Reg) : Fin 16 → Instr :=
  ![.add a b d, .sub a b d, .or a b d, .and a b d, .slt a b d, .op0Func5 a b d, .op0Func6 a b d, .op0Func7 a b d,
    .jr a (regBits b ++ regBits d), .op0Func9 a b d, .op0Func10 a b d, .op0Func11 a b d, .op0Func12 a b d,
    .op0Func13 a b d, .op0Func14 a b d, .op0Func15 a b d]

/-- The opcodes of format RRI (R98). -/
def immediateOpcode : Fin 5 → BitVec 3 := ![1, 4, 5, 6, 7]

/-- The instructions of format RRI, in the order of their opcodes. -/
def immediateInstr (a b : Reg) (v : BitVec 7) : Fin 5 → Instr :=
  ![.addi a b (simm7 v), .lw a b (simm7 v), .sw a b (simm7 v), .jeq a b (simm7 v), .slti a b v]

/-- The opcodes of format J (R98). -/
def jumpOpcode : Fin 2 → BitVec 3 := ![2, 3]

/-- The instructions of format J, in the order of their opcodes. -/
def jumpInstr (target : Addr) : Fin 2 → Instr := ![.j target, .jal target]

theorem field_append_field (w : Word) (lo len len' : Nat) :
    field w (lo + len) len' ++ field w lo len = field w lo (len' + len) :=
  BitVec.extractLsb'_append_extractLsb'_eq_extractLsb' rfl

/-- The bits `jr` ignores are the two lower register fields (R101). -/
theorem field_four_six (w : Word) : field w 4 6 = regBits (regField w 7) ++ regBits (regField w 4) :=
  (field_append_field w 4 3 3).symm

theorem decodeFunc_eq_opcodeZeroInstr (w : Word) :
    decodeFunc w = opcodeZeroInstr (regField w 10) (regField w 7) (regField w 4) (funcField w) := by
  unfold decodeFunc
  rw [field_four_six]
  generalize funcField w = f
  fin_cases f <;> rfl

theorem decode_of_opcode_zero {w : Word} (h : opcodeField w = 0) :
    decode w = opcodeZeroInstr (regField w 10) (regField w 7) (regField w 4) (funcField w) := by
  rw [Machine.decode_of_opcodeField_zero h, decodeFunc_eq_opcodeZeroInstr]

theorem decode_of_opcode_immediate {w : Word} {k : Fin 5} (h : opcodeField w = (immediateOpcode k).toFin) :
    decode w = immediateInstr (regField w 10) (regField w 7) (field w 0 7) k := by
  rw [decode, h]
  fin_cases k <;> rfl

theorem decode_of_opcode_jump {w : Word} {k : Fin 2} (h : opcodeField w = (jumpOpcode k).toFin) :
    decode w = jumpInstr (field w 0 13) k := by
  rw [decode, h]
  fin_cases k <;> rfl

/-! ### A word from its fields (R91 to R93) -/

theorem field_zero_sixteen (w : Word) : field w 0 16 = w := BitVec.extractLsb'_eq_self

theorem encodeRRI_fields (w : Word) :
    encodeRRI (field w 13 3) (regField w 10) (regField w 7) (field w 0 7) = w :=
  calc encodeRRI (field w 13 3) (regField w 10) (regField w 7) (field w 0 7)
    _ = field w 13 3 ++ field w 10 3 ++ field w 7 3 ++ field w 0 7 := rfl
    _ = w := by
      rw [field_append_field w 10 3 3, field_append_field w 7 3 6, field_append_field w 0 7 9, field_zero_sixteen]

theorem encodeJ_fields (w : Word) : encodeJ (field w 13 3) (field w 0 13) = w :=
  (field_append_field w 0 13 3).trans (field_zero_sixteen w)

theorem encodeRRR_fields {w : Word} (h : opcodeField w = 0) :
    encodeRRR (regField w 10) (regField w 7) (regField w 4) (field w 0 4) = w := by
  have hop : 0#3 = field w 13 3 := BitVec.eq_of_toFin_eq h.symm
  calc encodeRRR (regField w 10) (regField w 7) (regField w 4) (field w 0 4)
    _ = field w 13 3 ++ field w 10 3 ++ field w 7 3 ++ field w 4 3 ++ field w 0 4 := by rw [← hop]; rfl
    _ = w := by
      rw [field_append_field w 10 3 3, field_append_field w 7 3 6, field_append_field w 4 3 9,
        field_append_field w 0 4 12, field_zero_sixteen]

/-- Every opcode is that of one format: opcode 0 of RRR, and the others of RRI or J (R98). -/
theorem opcode_cases (op : Fin 8) :
    op = 0 ∨ (∃ k, op = (immediateOpcode k).toFin) ∨ ∃ k, op = (jumpOpcode k).toFin := by
  decide +revert

/-- Every word is of one format, and decodes to that format's instruction of its fields (R90 to R93). -/
theorem decode_cases (w : Word) :
    (∃ a b d f, w = encodeRRR a b d (BitVec.ofFin f) ∧ decode w = opcodeZeroInstr a b d f) ∨
    (∃ a b v k, w = encodeRRI (immediateOpcode k) a b v ∧ decode w = immediateInstr a b v k) ∨
    (∃ target k, w = encodeJ (jumpOpcode k) target ∧ decode w = jumpInstr target k) := by
  rcases opcode_cases (opcodeField w) with h | ⟨k, h⟩ | ⟨k, h⟩
  · exact .inl ⟨_, _, _, funcField w, (encodeRRR_fields h).symm, decode_of_opcode_zero h⟩
  · have hop : immediateOpcode k = field w 13 3 := BitVec.eq_of_toFin_eq h.symm
    exact .inr (.inl ⟨_, _, _, k, by rw [hop, encodeRRI_fields], decode_of_opcode_immediate h⟩)
  · have hop : jumpOpcode k = field w 13 3 := BitVec.eq_of_toFin_eq h.symm
    exact .inr (.inr ⟨_, k, by rw [hop, encodeJ_fields], decode_of_opcode_jump h⟩)

/-! ### The round trip (R102, R105) -/

theorem encode_opcodeZeroInstr (a b d : Reg) (f : Fin 16) :
    encode (opcodeZeroInstr a b d f) = encodeRRR a b d (BitVec.ofFin f) := by
  have hjr : 0#3 ++ regBits a ++ (regBits b ++ regBits d) = 0#3 ++ regBits a ++ regBits b ++ regBits d :=
    (BitVec.append_assoc (x₁ := 0#3 ++ regBits a) (x₂ := regBits b) (x₃ := regBits d)).symm
  fin_cases f
  on_goal 9 => exact congrArg (· ++ 8#4) hjr
  all_goals rfl

theorem encode_immediateInstr (a b : Reg) (v : BitVec 7) (k : Fin 5) :
    encode (immediateInstr a b v k) = encodeRRI (immediateOpcode k) a b v := by
  fin_cases k <;> simp [immediateInstr, immediateOpcode, encode]

theorem encode_jumpInstr (target : Addr) (k : Fin 2) :
    encode (jumpInstr target k) = encodeJ (jumpOpcode k) target := by
  fin_cases k <;> rfl

theorem decode_encode_opcodeZeroInstr (a b d : Reg) (f : Fin 16) :
    decode (encode (opcodeZeroInstr a b d f)) = opcodeZeroInstr a b d f := by
  obtain ⟨hop, ha, hb, hd, hf⟩ := field_encodeRRR a b d (BitVec.ofFin f)
  rw [encode_opcodeZeroInstr, decode_of_opcode_zero hop, ha, hb, hd, hf]

theorem decode_encode_immediateInstr (a b : Reg) (v : BitVec 7) (k : Fin 5) :
    decode (encode (immediateInstr a b v k)) = immediateInstr a b v k := by
  obtain ⟨hop, ha, hb, hv⟩ := field_encodeRRI (immediateOpcode k) a b v
  rw [encode_immediateInstr, decode_of_opcode_immediate hop, ha, hb, hv]

theorem decode_encode_jumpInstr (target : Addr) (k : Fin 2) :
    decode (encode (jumpInstr target k)) = jumpInstr target k := by
  obtain ⟨hop, ht⟩ := field_encodeJ (jumpOpcode k) target
  rw [encode_jumpInstr, decode_of_opcode_jump hop, ht]

/-- The bits `jr` ignores are two register fields, as for the other function codes of opcode 0. -/
theorem jr_eq_opcodeZeroInstr (a : Reg) (g : BitVec 6) :
    Instr.jr a g = opcodeZeroInstr a (g.extractLsb' 3 3).toFin (g.extractLsb' 0 3).toFin 8 :=
  congrArg (Instr.jr a) ((BitVec.extractLsb'_append_extractLsb'_eq_extractLsb' (start₁ := 0) (len₁ := 3) rfl).trans
    BitVec.extractLsb'_eq_self).symm

/-- Every well-formed instruction is one of its format's, for some fields (R91 to R94). -/
theorem format_cases {i : Instr} (h : i.wellFormed = true) :
    (∃ a b d f, i = opcodeZeroInstr a b d f) ∨ (∃ a b v k, i = immediateInstr a b v k) ∨
      ∃ target k, i = jumpInstr target k := by
  have imm_eq {imm : Int} (himm : immInRange imm = true) : imm = simm7 (immBits imm) := (simm7_immBits imm himm).symm
  cases i with
  | add a b d => exact .inl ⟨a, b, d, 0, rfl⟩
  | sub a b d => exact .inl ⟨a, b, d, 1, rfl⟩
  | or a b d => exact .inl ⟨a, b, d, 2, rfl⟩
  | and a b d => exact .inl ⟨a, b, d, 3, rfl⟩
  | slt a b d => exact .inl ⟨a, b, d, 4, rfl⟩
  | op0Func5 a b d => exact .inl ⟨a, b, d, 5, rfl⟩
  | op0Func6 a b d => exact .inl ⟨a, b, d, 6, rfl⟩
  | op0Func7 a b d => exact .inl ⟨a, b, d, 7, rfl⟩
  | jr a g => exact .inl ⟨a, _, _, 8, jr_eq_opcodeZeroInstr a g⟩
  | op0Func9 a b d => exact .inl ⟨a, b, d, 9, rfl⟩
  | op0Func10 a b d => exact .inl ⟨a, b, d, 10, rfl⟩
  | op0Func11 a b d => exact .inl ⟨a, b, d, 11, rfl⟩
  | op0Func12 a b d => exact .inl ⟨a, b, d, 12, rfl⟩
  | op0Func13 a b d => exact .inl ⟨a, b, d, 13, rfl⟩
  | op0Func14 a b d => exact .inl ⟨a, b, d, 14, rfl⟩
  | op0Func15 a b d => exact .inl ⟨a, b, d, 15, rfl⟩
  | addi a d imm => exact .inr (.inl ⟨a, d, immBits imm, 0, congrArg (Instr.addi a d) (imm_eq h)⟩)
  | lw a d imm => exact .inr (.inl ⟨a, d, immBits imm, 1, congrArg (Instr.lw a d) (imm_eq h)⟩)
  | sw a r imm => exact .inr (.inl ⟨a, r, immBits imm, 2, congrArg (Instr.sw a r) (imm_eq h)⟩)
  | jeq a b imm => exact .inr (.inl ⟨a, b, immBits imm, 3, congrArg (Instr.jeq a b) (imm_eq h)⟩)
  | slti a d v => exact .inr (.inl ⟨a, d, v, 4, rfl⟩)
  | j target => exact .inr (.inr ⟨target, 0, rfl⟩)
  | jal target => exact .inr (.inr ⟨target, 1, rfl⟩)

theorem wellFormed_opcodeZeroInstr (a b d : Reg) (f : Fin 16) : (opcodeZeroInstr a b d f).wellFormed = true := by
  fin_cases f <;> rfl

theorem wellFormed_immediateInstr (a b : Reg) (v : BitVec 7) (k : Fin 5) :
    (immediateInstr a b v k).wellFormed = true := by
  fin_cases k
  on_goal 5 => rfl
  all_goals exact immInRange_simm7 v

theorem wellFormed_jumpInstr (target : Addr) (k : Fin 2) : (jumpInstr target k).wellFormed = true := by
  fin_cases k <;> rfl

/-- Settles O1: a well-formed instruction is one of its format's, and the fields of a format's word are those it was
put together from. -/
theorem decodeOfEncode : Obligations.DecodeOfEncode := by
  unfold Obligations.DecodeOfEncode
  intro i h
  rcases format_cases h with ⟨a, b, d, f, rfl⟩ | ⟨a, b, v, k, rfl⟩ | ⟨target, k, rfl⟩
  · exact decode_encode_opcodeZeroInstr a b d f
  · exact decode_encode_immediateInstr a b v k
  · exact decode_encode_jumpInstr target k

theorem encode_decode (w : Word) : encode (decode w) = w := by
  rcases decode_cases w with ⟨a, b, d, f, hw, hi⟩ | ⟨a, b, v, k, hw, hi⟩ | ⟨target, k, hw, hi⟩ <;> rw [hi, hw]
  · exact encode_opcodeZeroInstr a b d f
  · exact encode_immediateInstr a b v k
  · exact encode_jumpInstr target k

theorem wellFormed_decode (w : Word) : (decode w).wellFormed = true := by
  rcases decode_cases w with ⟨a, b, d, f, -, hi⟩ | ⟨a, b, v, k, -, hi⟩ | ⟨target, k, -, hi⟩ <;> rw [hi]
  · exact wellFormed_opcodeZeroInstr a b d f
  · exact wellFormed_immediateInstr a b v k
  · exact wellFormed_jumpInstr target k

/-- Settles O2: every word is of one format, and that format's instruction of its fields encodes to it. -/
theorem everyWordIsAnInstruction : Obligations.EveryWordIsAnInstruction := by
  unfold Obligations.EveryWordIsAnInstruction
  exact fun w => ⟨wellFormed_decode w, encode_decode w⟩

/-! ### The opcode table (R98, R99) -/

/-- The encoded word of every instruction is one of the instruction's own row. -/
theorem rowMatch (i : Instr) : Laws.RowMatch.Statement i := by
  cases i with
  | add => exact Laws.RowMatch.add ..
  | sub => exact Laws.RowMatch.sub ..
  | or => exact Laws.RowMatch.or ..
  | and => exact Laws.RowMatch.and ..
  | slt => exact Laws.RowMatch.slt ..
  | jr => exact Laws.RowMatch.jr ..
  | op0Func5 => exact Laws.RowMatch.op0Func5 ..
  | op0Func6 => exact Laws.RowMatch.op0Func6 ..
  | op0Func7 => exact Laws.RowMatch.op0Func7 ..
  | op0Func9 => exact Laws.RowMatch.op0Func9 ..
  | op0Func10 => exact Laws.RowMatch.op0Func10 ..
  | op0Func11 => exact Laws.RowMatch.op0Func11 ..
  | op0Func12 => exact Laws.RowMatch.op0Func12 ..
  | op0Func13 => exact Laws.RowMatch.op0Func13 ..
  | op0Func14 => exact Laws.RowMatch.op0Func14 ..
  | op0Func15 => exact Laws.RowMatch.op0Func15 ..
  | addi => exact Laws.RowMatch.addi ..
  | j => exact Laws.RowMatch.j ..
  | jal => exact Laws.RowMatch.jal ..
  | lw => exact Laws.RowMatch.lw ..
  | sw => exact Laws.RowMatch.sw ..
  | jeq => exact Laws.RowMatch.jeq ..
  | slti => exact Laws.RowMatch.slti ..

/-- Two rows that agree in the bits that both masks keep are one row. -/
theorem opcodeTable_disjoint :
    ∀ row ∈ opcodeTable, ∀ row' ∈ opcodeTable, row'.mask &&& row.value = row.mask &&& row'.value → row = row' := by
  decide

theorem opcodeTable_mnemonic_nodup : (opcodeTable.map OpcodeRow.mnemonic).Nodup := by
  decide

/-- Two rows that cover one word agree in the bits that both masks keep. -/
theorem masked_value_eq_of_covers {row row' : OpcodeRow} {w : Word} (h : row.covers w = true)
    (h' : row'.covers w = true) : row'.mask &&& row.value = row.mask &&& row'.value := by
  rw [← eq_of_beq h, ← eq_of_beq h']
  ac_rfl

theorem row_eq_of_covers {row row' : OpcodeRow} {w : Word} (hmem : row ∈ opcodeTable) (hmem' : row' ∈ opcodeTable)
    (h : row.covers w = true) (h' : row'.covers w = true) : row = row' :=
  opcodeTable_disjoint row hmem row' hmem' (masked_value_eq_of_covers h h')

/-- Settles O3: the instruction's own row covers the word it encodes to, which is the word decoded; no other row covers
that word, and no other has that mnemonic. -/
theorem decodeFollowsOpcodeTable : Obligations.DecodeFollowsOpcodeTable := by
  unfold Obligations.DecodeFollowsOpcodeTable
  intro w row hmem
  obtain ⟨own, hown, hname, hcovers⟩ := rowMatch (decode w)
  rw [encode_decode] at hcovers
  rw [← hname]
  constructor
  · intro h
    exact congrArg OpcodeRow.mnemonic (row_eq_of_covers hmem hown h hcovers)
  · intro h
    rw [List.inj_on_of_nodup_map opcodeTable_mnemonic_nodup hmem hown h]
    exact hcovers

/-- Settles O4: the words are written out from the formats, and each decodes by its own fields. -/
theorem wordsWrittenOutDecode : Obligations.WordsWrittenOutDecode := by
  unfold Obligations.WordsWrittenOutDecode
  decide

end Sys2Proof

/-! SUPPORT. Opcode 0 (spec/30_encoding.md R99 to R101, spec/40_arith.md R125, spec/41_control.md R140): its words by
their numbers, the unnamed function codes, and the fields that change nothing. -/

namespace Sys2Proof.Machine

/-! ### The fields of a word as numbers (R9, R97) -/

theorem field_toNat (w : Word) (lo len : Nat) : (field w lo len).toNat = w.toNat / 2 ^ lo % 2 ^ len := by
  rw [field, BitVec.extractLsb'_toNat, Nat.shiftRight_eq_div_pow]

theorem regField_val (w : Word) (lo : Nat) : (regField w lo).val = w.toNat / 2 ^ lo % 8 := field_toNat w lo 3

theorem funcField_val (w : Word) : (funcField w).val = w.toNat % 16 := by
  rw [← Nat.div_one w.toNat]; exact field_toNat w 0 4

theorem opcodeField_eq_zero_iff (w : Word) : opcodeField w = 0 ↔ w.toNat / 8192 = 0 := by
  have hw := w.isLt
  have hval : (opcodeField w).val = w.toNat / 8192 % 8 := field_toNat w 13 3
  rw [Fin.ext_iff, hval]
  show _ = 0 ↔ _
  omega

theorem decode_wordRRR (a b d : Reg) (f : Fin 16) : decode (wordRRR a b d f.val) = opcodeZeroInstr a b d f := by
  rw [wordRRR_eq, ← encode_opcodeZeroInstr, decode_encode_opcodeZeroInstr]

/-! ### The unnamed function codes (R103, R125) -/

theorem unnamedFunction_of_nop {s : State} (h : s.params.undefFunc = .nop) (func : Nat) :
    unnamedFunction func s = .next s.advance := by
  rw [unnamedFunction, h]

theorem unnamedFunction_of_refuse {s : State} (h : s.params.undefFunc = .refuse) (func : Nat) :
    unnamedFunction func s = .refused (.unnamedFunction func) := by
  rw [unnamedFunction, h]

/-- The instructions of the function codes from 5 on, but 8, are those that name no operation. -/
theorem exec_opcodeZeroInstr_unnamed (a b d : Reg) {f : Fin 16} (hne : f ≠ 8) (hf : 5 ≤ f.val) (s : State) :
    exec (opcodeZeroInstr a b d f) s = unnamedFunction f.val s := by
  fin_cases f
  on_goal 9 => exact absurd rfl hne
  iterate 5 exact absurd hf (by decide)
  all_goals rfl

theorem opcodeZeroInstr_named (a b d : Reg) {f : Fin 16} (hf : f.val < 5) :
    [Instr.add a b d, .sub a b d, .or a b d, .and a b d, .slt a b d][f.val]? = some (opcodeZeroInstr a b d f) := by
  obtain ⟨f, hlt⟩ := f
  change f < 5 at hf
  interval_cases f <;> rfl

/-- With destination 0, a function code other than that of `jr` only advances the pc (R100). -/
theorem exec_opcodeZeroInstr_destination_zero (a b : Reg) {f : Fin 16} (hne : f ≠ 8) {s : State}
    (hs : s.params.undefFunc = .nop ∨ f.val < 5) : exec (opcodeZeroInstr a b 0 f) s = .next s.advance := by
  by_cases hf : f.val < 5
  · have hmem := List.mem_of_getElem? (opcodeZeroInstr_named a b 0 hf)
    exact exec_of_destination_zero a b 0 0 s _ (List.mem_append_left [_, _, _] hmem)
  · rw [exec_opcodeZeroInstr_unnamed a b 0 hne (Nat.le_of_not_lt hf),
      unnamedFunction_of_nop (hs.resolve_right hf)]

/-! ### The statements -/

/-- Settles O5: a word of opcode 0 is its format's instruction of its function code and its three register fields. -/
theorem opcodeZeroDecodingOrder : Obligations.OpcodeZeroDecodingOrder := by
  unfold Obligations.OpcodeZeroDecodingOrder
  intro w s hw
  have hdecode := decode_of_opcode_zero ((opcodeField_eq_zero_iff w).mpr hw)
  have hfunc := funcField_val w
  have hne : w.toNat % 16 ≠ 8 → funcField w ≠ 8 := fun h h8 => h (by rw [← hfunc, h8]; rfl)
  rw [hdecode]
  refine ⟨fun h8 => ?_, fun h8 hdst hs => ?_, fun h8 h5 hs => ?_, fun h5 => ?_⟩
  · have hf : funcField w = 8 := Fin.ext (hfunc.trans h8)
    rw [hf]
    exact ⟨_, _, rfl, regField_val w 10⟩
  · have hd : regField w 4 = 0 := Fin.ext ((regField_val w 4).trans hdst)
    rw [hd]
    rw [← hfunc] at hs
    exact ⟨s.advance, exec_opcodeZeroInstr_destination_zero _ _ (hne h8) hs, nextWord_advance s, advance_frame s⟩
  · rw [exec_opcodeZeroInstr_unnamed _ _ _ (hne h8) (hfunc ▸ h5), unnamedFunction_of_refuse hs, hfunc]
  · refine ⟨regField w 10, regField w 7, regField w 4, regField_val w 10, regField_val w 7, regField_val w 4, ?_⟩
    rw [← hfunc]
    exact opcodeZeroInstr_named _ _ _ (hfunc ▸ h5)

theorem ne_eight_of_unnamed {f : Fin 16} (h : f.val ∈ [5, 6, 7, 9, 10, 11, 12, 13, 14, 15]) : f ≠ 8 ∧ 5 ≤ f.val := by
  revert f; decide

/-- Settles O6: with destination 0 every instruction but `jr` is a mere advance, and neither `jr` nor an unnamed
function code reads the bits it ignores. -/
theorem ignoredFieldsHaveNoEffect : Obligations.IgnoredFieldsHaveNoEffect := by
  unfold Obligations.IgnoredFieldsHaveNoEffect
  intro s
  refine ⟨fun _ _ _ => rfl, fun _ _ _ _ => rfl, fun _ _ _ _ => rfl, fun _ _ _ _ => rfl,
    fun a b a' b' f f' hf hf' hs => ?_, fun a b d a' b' d' f hf => ?_⟩
  · rw [decode_wordRRR, decode_wordRRR, exec_opcodeZeroInstr_destination_zero a b hf (hs.imp_right And.left),
      exec_opcodeZeroInstr_destination_zero a' b' hf' (hs.imp_right And.right)]
  · obtain ⟨hne, hle⟩ := ne_eight_of_unnamed hf
    rw [decode_wordRRR, decode_wordRRR, exec_opcodeZeroInstr_unnamed a b d hne hle,
      exec_opcodeZeroInstr_unnamed a' b' d' hne hle]

/-- Settles O12: under `nop` an unnamed function code is a mere advance. -/
theorem unnamedFunctionsAreNoOps : Obligations.UnnamedFunctionsAreNoOps := by
  unfold Obligations.UnnamedFunctionsAreNoOps
  intro a b d s hs
  obtain ⟨hreg, hmem, hrun, hreport⟩ := advance_frame s
  have hnop := unnamedFunction_of_nop hs
  exact ⟨s.advance, nextWord_advance s, hreg, hmem, hrun, hreport, hnop 5, hnop 6, hnop 7, hnop 9, hnop 10, hnop 11,
    hnop 12, hnop 13, hnop 14, hnop 15⟩

/-- Settles O13: under `refuse` an unnamed function code is refused by its number. -/
theorem unnamedFunctionsRefusedUnderRefuse : Obligations.UnnamedFunctionsRefusedUnderRefuse := by
  unfold Obligations.UnnamedFunctionsRefusedUnderRefuse
  intro a b d s hs
  have hrefuse := unnamedFunction_of_refuse hs
  exact ⟨hrefuse 5, hrefuse 6, hrefuse 7, hrefuse 9, hrefuse 10, hrefuse 11, hrefuse 12, hrefuse 13, hrefuse 14,
    hrefuse 15⟩

/-- Settles O14: the word is the encoding of `jr`, which changes the pc alone. -/
theorem jrJumpsToLow13Bits : Obligations.JrJumpsToLow13Bits := by
  unfold Obligations.JrJumpsToLow13Bits
  intro a g s
  refine ⟨?_, s.setPc (registerTarget (s.readReg a)), rfl, registerTarget_toNat _, setPc_frame s _⟩
  rw [wordJr_eq]
  exact decodeOfEncode (.jr a g) rfl

end Sys2Proof.Machine

/-! SUPPORT. The cache hierarchy under accesses (spec/20_memory.md R67 to R79): what a miss does, the order in which a
Tag Set evicts, what each configuration logs, and the well-formedness that every access keeps. -/

namespace Sys2Proof.Machine

/-! ### The lookup of an absent tag (R69) -/

theorem TagSet.touch_of_full {assoc : Nat} {s : TagSet} {t : Nat} (h : t ∉ s) (hfull : s.length = assoc) :
    TagSet.touch assoc s t = s.tail ++ [t] := by
  rw [TagSet.touch_eq, if_neg h, if_pos hfull]

theorem TagSet.touch_of_not_full {assoc : Nat} {s : TagSet} {t : Nat} (h : t ∉ s) (hfull : s.length ≠ assoc) :
    TagSet.touch assoc s t = s ++ [t] := by
  rw [TagSet.touch_eq, if_neg h, if_neg hfull]

/-- Settles O30: a miss evicts the head of a full set and nothing of one that is not full. -/
theorem missInsertsAndEvictsHead : Obligations.MissInsertsAndEvictsHead := by
  unfold Obligations.MissInsertsAndEvictsHead
  intro assoc t s ht
  refine ⟨fun hfull head rest hs => ?_, fun hlt => TagSet.touch_of_not_full ht hlt.ne⟩
  rw [TagSet.touch_of_full ht hfull, hs, List.tail_cons]

/-! ### The order of eviction (R79) -/

/-- A miss keeps the last `assoc` of the tags and the new one. -/
theorem TagSet.touch_of_miss {assoc : Nat} (hassoc : 0 < assoc) {s : TagSet} (hs : s.length ≤ assoc) {t : Nat}
    (ht : t ∉ s) : TagSet.touch assoc s t = (s ++ [t]).drop (s.length + 1 - assoc) := by
  by_cases hfull : s.length = assoc
  · have hdrop : s.length + 1 - assoc = 1 := by omega
    rw [TagSet.touch_of_full ht hfull, hdrop, List.drop_append_of_le_length (by omega), List.drop_one]
  · have hdrop : s.length + 1 - assoc = 0 := by omega
    rw [TagSet.touch_of_not_full ht hfull, hdrop, List.drop_zero]

/-- Without hits a Tag Set keeps the last `assoc` tags of those it held and those that came, in order. -/
theorem TagSet.foldl_touch_of_misses {assoc : Nat} (hassoc : 0 < assoc) {s : TagSet} (hs : s.length ≤ assoc)
    {tags : List Nat} (hnodup : tags.Nodup) (hmiss : ∀ t ∈ tags, t ∉ s) :
    tags.foldl (TagSet.touch assoc) s = (s ++ tags).drop (s.length + tags.length - assoc) := by
  induction tags using List.reverseRecOn with
  | nil => simp [Nat.sub_eq_zero_of_le hs]
  | append_singleton tags t ih =>
    obtain ⟨hnodup, -, hdisj⟩ := List.nodup_append.mp hnodup
    have ih := ih hnodup (fun u hu => hmiss u (List.mem_append_left _ hu))
    have hold : t ∉ s ++ tags := by
      rw [List.mem_append, not_or]
      exact ⟨hmiss t (List.mem_append_right _ List.mem_cons_self), fun h => hdisj t h t List.mem_cons_self rfl⟩
    generalize hk : s.length + tags.length - assoc = k at ih
    have hlen : ((s ++ tags).drop k).length = s.length + tags.length - k := by
      rw [List.length_drop, List.length_append]
    have hle : k ≤ (s ++ tags).length := by rw [List.length_append]; omega
    calc (tags ++ [t]).foldl (TagSet.touch assoc) s
      _ = TagSet.touch assoc ((s ++ tags).drop k) t := by
        rw [List.foldl_append, ih, List.foldl_cons, List.foldl_nil]
      _ = ((s ++ tags).drop k ++ [t]).drop (s.length + tags.length - k + 1 - assoc) := by
        rw [TagSet.touch_of_miss hassoc (by omega) (fun h => hold (List.mem_of_mem_drop h)), hlen]
      _ = (s ++ (tags ++ [t])).drop (k + (s.length + tags.length - k + 1 - assoc)) := by
        rw [← List.drop_append_of_le_length hle, List.drop_drop, List.append_assoc]
      _ = (s ++ (tags ++ [t])).drop (s.length + (tags ++ [t]).length - assoc) := by
        rw [List.length_append, List.length_singleton]
        congr 1
        omega

/-- Settles O33: from an empty set, without hits, a set holds the last `assoc` tags that came. -/
theorem recencyIsFifoWithoutHits : Obligations.RecencyIsFifoWithoutHits := by
  unfold Obligations.RecencyIsFifoWithoutHits
  refine ⟨fun assoc tags hassoc hnodup => ?_, fun t u htu => ?_⟩
  · have hfifo := TagSet.foldl_touch_of_misses hassoc (s := []) (Nat.zero_le _) hnodup (fun _ _ => List.not_mem_nil)
    rwa [List.nil_append, List.length_nil, Nat.zero_add] at hfifo
  · exact TagSet.touch_of_full (s := [u]) (mt List.mem_singleton.mp htu) rfl

/-- Settles O34: after the hit the tag stands last of `assoc`, and each miss moves it one place to the head. -/
theorem hitTagIsEvictedLast : Obligations.HitTagIsEvictedLast := by
  unfold Obligations.HitTagIsEvictedLast
  intro assoc t s misses hs hfull ht hnodup hmiss
  have hpos : 0 < s.length := List.length_pos_of_mem ht
  have hrest : (s.erase t).length = assoc - 1 := by rw [List.length_erase_of_mem ht, hfull]
  have hlen : (s.erase t ++ [t]).length = assoc := by rw [List.length_append, hrest, List.length_singleton]; omega
  have hnew : ∀ m ∈ misses, m ∉ s.erase t ++ [t] := by
    intro m hm h
    rcases List.mem_append.mp h with h | h
    · exact hmiss m hm (List.mem_of_mem_erase h)
    · exact hmiss m hm (List.mem_singleton.mp h ▸ ht)
  rw [TagSet.touch_of_mem ht, TagSet.foldl_touch_of_misses (by omega) hlen.le hnodup hnew, hlen,
    Nat.add_sub_cancel_left]
  refine ⟨fun hlt => ?_, fun heq => ?_⟩
  · rw [List.append_assoc, List.drop_append_of_le_length (by omega)]
    simp
  · rw [List.drop_left' (hlen.trans heq.symm)]
    exact fun h => hmiss t h ht

/-! ### What each configuration logs (R70 to R75) -/

theorem observe_two_of_consulted {l1 : CacheLevel} {acc : Access} (h : consultsL2 l1 acc = true) (l2 : CacheLevel) :
    CacheHierarchy.observe (.two l1 l2) acc =
      (.two (l1.touch acc.effAddr) (l2.touch acc.effAddr), [l1.record .L1 acc, l2.record .L2 acc]) :=
  if_pos h

theorem observe_two_of_not_consulted {l1 : CacheLevel} {acc : Access} (h : consultsL2 l1 acc = false)
    (l2 : CacheLevel) : CacheHierarchy.observe (.two l1 l2) acc = (.two (l1.touch acc.effAddr) l2, [l1.record .L1 acc]) :=
  if_neg (Bool.eq_false_iff.mp h)

theorem record_load (l : CacheLevel) (name : LevelName) (a p : Addr) :
    l.record name ⟨a, .load, p⟩ = ⟨name, if l.hit a then .HIT else .MISS, p, a, rowOf l.cfg a⟩ := rfl

theorem consultsL2_load (l1 : CacheLevel) (a p : Addr) : consultsL2 l1 ⟨a, .load, p⟩ = !l1.hit a := rfl

/-- Settles O32: a load's record gives the hit of its own level, and L2 is consulted for a store and for a load that
misses L1. -/
theorem observeByConfiguration : Obligations.ObserveByConfiguration := by
  unfold Obligations.ObserveByConfiguration
  intro l1 l2 a p
  have hone (kind : AccessKind) : CacheHierarchy.observe (.one l1) ⟨a, kind, p⟩ =
    (.one (l1.touch a), [l1.record .L1 ⟨a, kind, p⟩]) := rfl
  refine ⟨fun _ => rfl, hone .store, fun hhit => ⟨?_, ?_⟩, fun hmiss => ⟨?_, ?_⟩, observe_two_of_consulted rfl l2⟩
  · rw [hone, record_load, if_pos hhit]
  · rw [observe_two_of_not_consulted (by rw [consultsL2_load, hhit]; rfl), record_load, if_pos hhit]
  · rw [hone, record_load, hmiss]; rfl
  · rw [observe_two_of_consulted (by rw [consultsL2_load, hmiss]; rfl), record_load, record_load, hmiss]; rfl

/-! ### Every access keeps the caches well formed (R33, R34) -/

/-- A new tag put behind some of the tags of a well-formed set, if they leave it room. -/
theorem TagSetWf.append_of_sublist {c : LevelConfig} {s rest : TagSet} {t : Nat} (h : TagSetWf c s)
    (hsub : rest.Sublist s) (hroom : rest.length < c.assoc) (hnew : t ∉ rest)
    (ht : t ≤ 8191 / (c.blockSize * numRows c)) : TagSetWf c (rest ++ [t]) where
  bounded := by rw [List.length_append, List.length_singleton]; omega
  nodup := List.nodup_append_comm.mp (List.nodup_cons.mpr ⟨hnew, h.nodup.sublist hsub⟩)
  tags u hu := by
    rcases List.mem_append.mp hu with hu | hu
    · exact h.tags u (hsub.subset hu)
    · rwa [List.mem_singleton.mp hu]

theorem TagSetWf.touch {c : LevelConfig} {s : TagSet} (h : TagSetWf c s) (hassoc : 0 < c.assoc) {t : Nat}
    (ht : t ≤ 8191 / (c.blockSize * numRows c)) : TagSetWf c (TagSet.touch c.assoc s t) := by
  have hbound := h.bounded
  rcases TagSet.touch_cases c.assoc s t with ⟨hmem, e⟩ | ⟨hmem, hfull, e⟩ | ⟨hmem, hfull, e⟩ <;> rw [e]
  · have hpos : 0 < s.length := List.length_pos_of_mem hmem
    exact h.append_of_sublist List.erase_sublist (by rw [List.length_erase_of_mem hmem]; omega)
      h.nodup.not_mem_erase ht
  · exact h.append_of_sublist (List.tail_sublist s) (by rw [List.length_tail]; omega)
      (fun hu => hmem (List.mem_of_mem_tail hu)) ht
  · exact h.append_of_sublist (List.Sublist.refl s) (by omega) hmem ht

theorem LevelWf.tagSet_mem {l : CacheLevel} (h : LevelWf l) (a : Addr) : l.tagSet (rowOf l.cfg a) ∈ l.rows := by
  rw [CacheLevel.tagSet, List.getD_eq_getElem _ _ (h.rowOf_lt a)]
  exact List.getElem_mem _

theorem LevelWf.touch {l : CacheLevel} (h : LevelWf l) (a : Addr) : LevelWf (l.touch a) where
  legal := h.legal
  rows := (l.touch_rows_length a).trans h.rows
  sets s hs := by
    obtain ⟨-, hassoc, -⟩ := h.legal
    rcases List.mem_or_eq_of_mem_set hs with hs | rfl
    · exact h.sets s hs
    · exact (h.sets _ (h.tagSet_mem a)).touch hassoc (tagOf_le l.cfg a)

theorem CachesWf.observe {h : CacheHierarchy} (hwf : CachesWf h) (acc : Access) : CachesWf (h.observe acc).1 := by
  rcases h.observe_cases acc with ⟨rfl, e⟩ | ⟨l1, rfl, e⟩ | ⟨l1, l2, rfl, -, e⟩ | ⟨l1, l2, rfl, -, e⟩ <;> rw [e]
  · exact trivial
  · exact LevelWf.touch hwf acc.effAddr
  · exact ⟨hwf.1.touch acc.effAddr, hwf.2.touch acc.effAddr⟩
  · exact ⟨hwf.1.touch acc.effAddr, hwf.2⟩

/-- A property of the hierarchy that every access keeps is kept by all of them. -/
theorem CacheHierarchy.observeAll_induction {P : CacheHierarchy → Prop} (hstep : ∀ h acc, P h → P (h.observe acc).1)
    (accs : List Access) {h : CacheHierarchy} (hh : P h) : P (h.observeAll accs).1 := by
  induction accs generalizing h with
  | nil => exact hh
  | cons acc rest ih => exact ih (hstep h acc hh)

theorem CachesWf.observeAll {h : CacheHierarchy} (hwf : CachesWf h) (accs : List Access) :
    CachesWf (h.observeAll accs).1 :=
  CacheHierarchy.observeAll_induction (fun _ acc hwf => hwf.observe acc) accs hwf

@[simp] theorem CacheHierarchy.observeAll_configs (h : CacheHierarchy) (accs : List Access) :
    (h.observeAll accs).1.configs = h.configs :=
  CacheHierarchy.observeAll_induction (P := fun h' => h'.configs = h.configs)
    (fun h' acc e => (h'.observe_configs acc).trans e) accs rfl

@[simp] theorem CacheHierarchy.observeAll_cold (h : CacheHierarchy) (accs : List Access) :
    (h.observeAll accs).1.cold = h.cold :=
  CacheHierarchy.observeAll_induction (P := fun h' => h'.cold = h.cold)
    (fun h' acc e => (h'.observe_cold acc).trans e) accs rfl

/-! ### Empty caches (R37) -/

theorem coldLevel_wf {c : LevelConfig} (h : LegalLevel c) : LevelWf (coldLevel c) where
  legal := h
  rows := List.length_replicate
  sets s hs := by
    rw [List.eq_of_mem_replicate hs]
    exact ⟨Nat.zero_le _, List.nodup_nil, List.forall_mem_nil _⟩

end Sys2Proof.Machine

/-! SUPPORT. The loader (spec/70_reset_and_hazards.md R201 to R204): the form of a line, the value of its numerals, and
which files load. -/

namespace Sys2Proof.Machine

/-! ### The text of a line (R201, R202) -/

theorem stripPrefix_eq_some_iff (p l rest : List Char) : stripPrefix p l = some rest ↔ l = p ++ rest := by
  induction p generalizing l with
  | nil => simp [stripPrefix]
  | cons c p ih =>
    cases l with
    | nil => simp [stripPrefix]
    | cons d l =>
      by_cases h : c = d
      · simp [stripPrefix, h, ih]
      · simp [stripPrefix, h, Ne.symm h]

theorem parseLiteral_eq_some_iff (l : List Char) (w : Word) :
    parseLiteral l = some w ↔
      ∃ bs, l = bs ++ [';'] ∧ bs.length = 16 ∧ bs.all isBinary = true ∧ w = BitVec.ofNat 16 (numeral 2 bs) := by
  unfold parseLiteral
  constructor
  · intro h
    obtain ⟨⟨hlen, hbin, hend⟩, hw⟩ := Option.ite_none_right_eq_some.mp h
    exact ⟨l.take 16, by rw [← hend, List.take_append_drop], hlen, hbin, (Option.some.inj hw).symm⟩
  · rintro ⟨bs, rfl, hlen, hbin, rfl⟩
    rw [List.take_left' hlen, List.drop_left' hlen, if_pos ⟨hlen, hbin, rfl⟩]

/-- The digits before the text that follows the address are all of them: that text begins with no digit. -/
theorem span_isDecimal {ds : List Char} (hds : ∀ c ∈ ds, isDecimal c = true) (rest : List Char) :
    (ds ++ (lineMiddle ++ rest)).takeWhile isDecimal = ds ∧
      (ds ++ (lineMiddle ++ rest)).dropWhile isDecimal = lineMiddle ++ rest := by
  have hstop : isDecimal ']' = false := by decide
  rw [List.takeWhile_append_of_pos hds, List.dropWhile_append_of_pos hds]
  simp [lineMiddle, hstop]

theorem parseLine_eq_some_iff (line : List Char) (a : Nat) (w : Word) :
    parseLine line = some (a, w) ↔
      ∃ ds bs, line = linePrefix ++ (ds ++ (lineMiddle ++ (bs ++ [';']))) ∧ ds ≠ [] ∧ (∀ c ∈ ds, isDecimal c = true) ∧
        bs.length = 16 ∧ bs.all isBinary = true ∧ a = numeral 10 ds ∧ w = BitVec.ofNat 16 (numeral 2 bs) := by
  unfold parseLine
  constructor
  · intro h
    split at h
    · cases h
    · next l hl =>
      obtain rfl := (stripPrefix_eq_some_iff ..).mp hl
      split at h
      · cases h
      · next hds =>
        split at h
        · cases h
        · next l' hl' =>
          have hrest := (stripPrefix_eq_some_iff ..).mp hl'
          obtain ⟨w', hlit, hw⟩ := Option.map_eq_some_iff.mp h
          cases hw
          obtain ⟨bs, rfl, hlen, hbin, rfl⟩ := (parseLiteral_eq_some_iff ..).mp hlit
          refine ⟨l.takeWhile isDecimal, bs, ?_, hds, fun c hc => List.mem_takeWhile_imp hc, hlen, hbin, rfl, rfl⟩
          rw [← hrest, List.takeWhile_append_dropWhile]
  · rintro ⟨ds, bs, rfl, hne, hds, hlen, hbin, rfl, rfl⟩
    obtain ⟨htake, hdrop⟩ := span_isDecimal hds (bs ++ [';'])
    simp only [(stripPrefix_eq_some_iff ..).mpr rfl, htake, hdrop, hne, if_false,
      (parseLiteral_eq_some_iff ..).mpr ⟨bs, rfl, hlen, hbin, rfl⟩, Option.map_some]

/-! ### The digits and their values (R203) -/

theorem isDecimal_iff (c : Char) :
    isDecimal c = true ↔ c ∈ ['0', '1', '2', '3', '4', '5', '6', '7', '8', '9'] := by
  constructor
  · intro h
    obtain ⟨hlo, hhi⟩ : 48 ≤ c.toNat ∧ c.toNat ≤ 57 := by simpa [isDecimal] using h
    rw [← Char.ofNat_toNat c]
    generalize c.toNat = n at hlo hhi
    interval_cases n <;> decide
  · revert c
    simp [isDecimal]

theorem isBinary_iff (c : Char) : isBinary c = true ↔ c = '0' ∨ c = '1' := by
  simp [isBinary]

theorem numeral_append_singleton (base : Nat) (ds : List Char) (c : Char) :
    numeral base (ds ++ [c]) = numeral base ds * base + (c.toNat - '0'.toNat) := by
  simp [numeral]

/-- The bits of a binary numeral are its digits, the last one lowest. -/
theorem testBit_numeral_two {bs : List Char} (hbin : ∀ c ∈ bs, c = '0' ∨ c = '1') (k : Nat) (hk : k < bs.length) :
    (numeral 2 bs).testBit (bs.length - 1 - k) = decide (bs[k] = '1') := by
  induction bs using List.reverseRecOn with
  | nil => cases hk
  | append_singleton bs c ih =>
    obtain ⟨hbs, hc⟩ := List.forall_mem_append.mp hbin
    have hdigit : numeral 2 (bs ++ [c]) = Nat.bit (decide (c = '1')) (numeral 2 bs) := by
      rw [numeral_append_singleton]
      rcases hc c List.mem_cons_self with rfl | rfl <;> simp [Nat.bit, Nat.mul_comm]
    rw [hdigit]
    by_cases hlast : k < bs.length
    · have hpos : (bs ++ [c]).length - 1 - k = (bs.length - 1 - k) + 1 := by
        rw [List.length_append, List.length_singleton]
        omega
      rw [hpos, Nat.testBit_bit_succ, ih hbs hlast, List.getElem_append_left hlast]
    · obtain rfl : k = bs.length := by
        rw [List.length_append, List.length_singleton] at hk
        omega
      simp

/-- A word is that of 16 binary digits exactly when its bits are the digits, the first one highest. -/
theorem eq_ofNat_numeral_two_iff {bs : List Char} (hlen : bs.length = 16) (hbin : ∀ c ∈ bs, c = '0' ∨ c = '1')
    (w : Word) :
    w = BitVec.ofNat 16 (numeral 2 bs) ↔ ∀ k (h : k < bs.length), w.getLsbD (15 - k) = decide (bs[k] = '1') := by
  have hbit : ∀ k (h : k < bs.length), (BitVec.ofNat 16 (numeral 2 bs)).getLsbD (15 - k) = decide (bs[k] = '1') := by
    intro k h
    have hlt : 15 - k < 16 := by omega
    rw [← testBit_numeral_two hbin k h, BitVec.getLsbD_ofNat, hlen, decide_eq_true hlt, Bool.true_and]
  constructor
  · rintro rfl
    exact hbit
  · intro hw
    apply BitVec.eq_of_getLsbD_eq
    intro i hi
    have hk : 15 - i < bs.length := by omega
    have hi' : i = 15 - (15 - i) := by omega
    rw [hi', hw _ hk, hbit _ hk]

/-- Settles O51: each part of the text is stripped exactly when it is there, and 16 binary digits are the bits of their
word. -/
theorem lineFormIsExact : Obligations.LineFormIsExact := by
  unfold Obligations.LineFormIsExact
  intro line a w
  rw [parseLine_eq_some_iff]
  refine exists_congr fun ds => exists_congr fun bs => ?_
  simp only [isDecimal_iff, List.all_eq_true, isBinary_iff, List.append_assoc]
  constructor
  · rintro ⟨hline, hne, hds, hlen, hbin, ha, hw⟩
    exact ⟨hline, hne, hds, hlen, hbin, ha, (eq_ofNat_numeral_two_iff hlen hbin w).mp hw⟩
  · rintro ⟨hline, hne, hds, hlen, hbin, ha, hw⟩
    exact ⟨hline, hne, hds, hlen, hbin, ha, (eq_ofNat_numeral_two_iff hlen hbin w).mpr hw⟩

end Sys2Proof.Machine

/-! SUPPORT. Reset (spec/70_reset_and_hazards.md R200, R204, R208, R209; spec/20_memory.md R65): which files and cache
arguments load, which error decides, and what the reset state and the final report hold. -/

namespace Sys2Proof.Machine

/-! ### The lines of a file (R204) -/

theorem loadLines_of_malformed {line : String} (h : parseLine line.toList = none) (i : Nat) (rest : List String) :
    loadLines i (line :: rest) = .error (.malformedInputLine line) := by
  rw [loadLines, h]

theorem loadLines_of_address_ne {line : String} {i a : Nat} {w : Word} (h : parseLine line.toList = some (a, w))
    (hne : a ≠ i) (rest : List String) : loadLines i (line :: rest) = .error (.addressSequenceError line) := by
  simp only [loadLines, h, hne, ne_eq, not_false_eq_true, if_true]

theorem loadLines_of_too_large {line : String} {i : Nat} {w : Word} (h : parseLine line.toList = some (i, w))
    (hlarge : memWords ≤ i) (rest : List String) : loadLines i (line :: rest) = .error (.programTooLarge line) := by
  simp only [loadLines, h, ne_eq, not_true, if_false, hlarge, if_true]

theorem loadLines_of_loaded {line : String} {i : Nat} {w : Word} (h : parseLine line.toList = some (i, w))
    (hfits : i < memWords) (rest : List String) :
    loadLines i (line :: rest) = (loadLines (i + 1) rest).map (w :: ·) := by
  simp only [loadLines, h, ne_eq, not_true, if_false, Nat.not_le_of_lt hfits]
  cases loadLines (i + 1) rest <;> rfl

/-- Every case of a first line: one of the three errors, or its word. -/
theorem parseLine_cases (line : String) (i : Nat) :
    parseLine line.toList = none ∨ (∃ a w, parseLine line.toList = some (a, w) ∧ a ≠ i) ∨
      (∃ w, parseLine line.toList = some (i, w) ∧ memWords ≤ i) ∨
      ∃ w, parseLine line.toList = some (i, w) ∧ i < memWords := by
  rcases hparse : parseLine line.toList with _ | ⟨a, w⟩
  · exact .inl rfl
  · by_cases ha : a = i
    · subst ha
      rcases Nat.lt_or_ge a memWords with hlt | hge
      · exact .inr (.inr (.inr ⟨w, rfl, hlt⟩))
      · exact .inr (.inr (.inl ⟨w, rfl, hge⟩))
    · exact .inr (.inl ⟨a, w, rfl, ha⟩)

theorem loadLines_cons_eq_ok_iff (i : Nat) (line : String) (rest : List String) (image : List Word) :
    loadLines i (line :: rest) = .ok image ↔
      ∃ w ws, image = w :: ws ∧ (i < memWords ∧ parseLine line.toList = some (i, w)) ∧
        loadLines (i + 1) rest = .ok ws := by
  rcases parseLine_cases line i with h | ⟨a, w, h, hne⟩ | ⟨w, h, hlarge⟩ | ⟨w, h, hfits⟩
  · simp [loadLines_of_malformed h, h]
  · simp [loadLines_of_address_ne h hne, h, hne]
  · simp [loadLines_of_too_large h hlarge, Nat.not_lt_of_le hlarge]
  · rw [loadLines_of_loaded h hfits]
    cases loadLines (i + 1) rest <;> simp [h, hfits, eq_comm, Except.map]

/-- The lines from line `i` on load exactly when each carries its own number, in the address space, and its word. -/
theorem loadLines_eq_ok_iff (i : Nat) (file : List String) (image : List Word) :
    loadLines i file = .ok image ↔
      image.length = file.length ∧ ∀ j (h : j < file.length) (h' : j < image.length),
        i + j < memWords ∧ parseLine file[j].toList = some (i + j, image[j]) := by
  induction file generalizing i image with
  | nil => simp [loadLines, eq_comm (a := [])]
  | cons line rest ih =>
    have hshift (j : Nat) : i + 1 + j = i + (j + 1) := by omega
    rw [loadLines_cons_eq_ok_iff]
    constructor
    · rintro ⟨w, ws, rfl, hline, hrest⟩
      obtain ⟨hlen, hlines⟩ := (ih ..).mp hrest
      refine ⟨congrArg (· + 1) hlen, fun j h h' => ?_⟩
      cases j with
      | zero => exact hline
      | succ j =>
        rw [← hshift]
        exact hlines j (Nat.lt_of_succ_lt_succ h) (Nat.lt_of_succ_lt_succ h')
    · rintro ⟨hlen, hlines⟩
      cases image with
      | nil => cases hlen
      | cons w ws =>
        refine ⟨w, ws, rfl, hlines 0 (Nat.succ_pos _) (Nat.succ_pos _),
          (ih ..).mpr ⟨Nat.succ.inj hlen, fun j h h' => ?_⟩⟩
        rw [hshift]
        exact hlines (j + 1) (Nat.succ_lt_succ h) (Nat.succ_lt_succ h')

/-- Settles O52: every line carries its own number, and all of them are addresses exactly when there are at most
8192. -/
theorem fileLoadsInAddressOrder : Obligations.FileLoadsInAddressOrder := by
  unfold Obligations.FileLoadsInAddressOrder
  intro file image
  rw [loadLines_eq_ok_iff]
  simp only [Nat.zero_add, memWords]
  constructor
  · rintro ⟨hlen, hlines⟩
    refine ⟨hlen, ?_, fun j h h' => (hlines j h h').2⟩
    by_contra hlarge
    exact absurd (hlines 8192 (by omega) (by omega)).1 (Nat.lt_irrefl _)
  · rintro ⟨hlen, hsize, hlines⟩
    exact ⟨hlen, fun j h h' => ⟨by omega, hlines j h h'⟩⟩

theorem loadLines_append_eq_error {i : Nat} {good rest : List String} {image : List Word} {e : BootError}
    (hgood : loadLines i good = .ok image) (hrest : loadLines (i + good.length) rest = .error e) :
    loadLines i (good ++ rest) = .error e := by
  induction good generalizing i image with
  | nil => exact hrest
  | cons line good ih =>
    obtain ⟨w, ws, -, ⟨hfits, hline⟩, hgood⟩ := (loadLines_cons_eq_ok_iff ..).mp hgood
    rw [List.length_cons, Nat.add_comm good.length, ← Nat.add_assoc] at hrest
    rw [List.cons_append, loadLines_of_loaded hline hfits, ih hgood hrest]
    rfl

/-- Settles O53: lines that load leave the error to the first line after them. -/
theorem firstBadLineDecides : Obligations.FirstBadLineDecides := by
  unfold Obligations.FirstBadLineDecides
  intro i good rest bad image hgood
  refine ⟨fun hparse => ?_, fun a w hparse hne => ?_, fun w hparse hlarge => ?_⟩
  · exact loadLines_append_eq_error hgood (loadLines_of_malformed hparse _ rest)
  · exact loadLines_append_eq_error hgood (loadLines_of_address_ne hparse hne rest)
  · exact loadLines_append_eq_error hgood (loadLines_of_too_large hparse hlarge rest)

/-! ### The cache arguments (R65) -/

theorem checkLevel_eq_some_iff (size assoc blockSize : Int) (c : LevelConfig) :
    checkLevel size assoc blockSize = some c ↔
      LegalLevel c ∧ size = c.size ∧ assoc = c.assoc ∧ blockSize = c.blockSize := by
  unfold checkLevel
  constructor
  · intro h
    obtain ⟨⟨hsize, hassoc, hblock, hdvd⟩, hc⟩ := Option.ite_none_right_eq_some.mp h
    obtain rfl := Option.some.inj hc
    lift size to Nat using hsize.le
    lift assoc to Nat using hassoc.le
    lift blockSize to Nat using hblock.le
    exact ⟨⟨Int.natCast_pos.mp hsize, Int.natCast_pos.mp hassoc, Int.natCast_pos.mp hblock, by exact_mod_cast hdvd⟩,
      rfl, rfl, rfl⟩
  · rintro ⟨⟨hsize, hassoc, hblock, hdvd⟩, rfl, rfl, rfl⟩
    refine if_pos ⟨?_, ?_, ?_, ?_⟩ <;> norm_cast

/-- The arguments that configure a hierarchy, each with the hierarchy it configures. -/
def Configures (args : List Int) (h : CacheHierarchy) : Prop :=
  (args = [] ∧ h = .none) ∨
  (∃ c, LegalLevel c ∧ args = [(c.size : Int), c.assoc, c.blockSize] ∧ h = .one (coldLevel c)) ∨
  (∃ c c', LegalLevel c ∧ LegalLevel c' ∧
    args = [(c.size : Int), c.assoc, c.blockSize, c'.size, c'.assoc, c'.blockSize] ∧
    h = .two (coldLevel c) (coldLevel c'))

theorem checkCacheArgs_eq_ok_iff (args : List Int) (h : CacheHierarchy) :
    checkCacheArgs args = .ok h ↔ Configures args h := by
  constructor
  · intro hok
    unfold checkCacheArgs at hok
    split at hok
    · cases hok
      exact .inl ⟨rfl, rfl⟩
    · next s1 a1 b1 =>
      split at hok
      · next c hc =>
        cases hok
        obtain ⟨hlegal, rfl, rfl, rfl⟩ := (checkLevel_eq_some_iff ..).mp hc
        exact .inr (.inl ⟨c, hlegal, rfl, rfl⟩)
      · cases hok
    · split at hok
      · next c c' hc hc' =>
        cases hok
        obtain ⟨hlegal, rfl, rfl, rfl⟩ := (checkLevel_eq_some_iff ..).mp hc
        obtain ⟨hlegal', rfl, rfl, rfl⟩ := (checkLevel_eq_some_iff ..).mp hc'
        exact .inr (.inr ⟨c, c', hlegal, hlegal', rfl, rfl⟩)
      · cases hok
    · cases hok
  · have hcheck {c : LevelConfig} (hlegal : LegalLevel c) : checkLevel c.size c.assoc c.blockSize = some c :=
      (checkLevel_eq_some_iff ..).mpr ⟨hlegal, rfl, rfl, rfl⟩
    rintro (⟨rfl, rfl⟩ | ⟨c, hlegal, rfl, rfl⟩ | ⟨c, c', hlegal, hlegal', rfl, rfl⟩)
    · rfl
    · simp only [checkCacheArgs, hcheck hlegal]
    · simp only [checkCacheArgs, hcheck hlegal, hcheck hlegal']

theorem checkCacheArgs_error {args : List Int} {e : BootError} (h : checkCacheArgs args = .error e) :
    e = .invalidCacheConfiguration args := by
  unfold checkCacheArgs at h
  split at h
  · cases h
  · split at h <;> cases h
    rfl
  · split at h <;> cases h
    rfl
  · cases h
    rfl

/-- Settles O54: a level is checked exactly when its triple is legal, and each of the other branches gives the one
error. -/
theorem cacheArgumentsAreChecked : Obligations.CacheArgumentsAreChecked := by
  unfold Obligations.CacheArgumentsAreChecked
  exact ⟨checkCacheArgs_eq_ok_iff, fun _ _ => checkCacheArgs_error⟩

theorem Configures.cold {args : List Int} {h : CacheHierarchy} (hc : Configures args h) : h = h.cold := by
  rcases hc with ⟨-, rfl⟩ | ⟨c, -, -, rfl⟩ | ⟨c, c', -, -, -, rfl⟩ <;> rfl

theorem Configures.cachesWf {args : List Int} {h : CacheHierarchy} (hc : Configures args h) : CachesWf h := by
  rcases hc with ⟨-, rfl⟩ | ⟨c, hlegal, -, rfl⟩ | ⟨c, c', hlegal, hlegal', -, rfl⟩
  · exact trivial
  · exact coldLevel_wf hlegal
  · exact ⟨coldLevel_wf hlegal, coldLevel_wf hlegal'⟩

/-! ### The reset state (R37, R200) -/

/-- Settles O55: `boot` loads the file before it checks the arguments. -/
theorem loaderErrorGoesFirst : Obligations.LoaderErrorGoesFirst := by
  unfold Obligations.LoaderErrorGoesFirst
  refine fun init params file args => ⟨fun e hload => ?_, fun image e hload hcheck => ?_⟩
  · simp only [boot, hload]
  · simp only [boot, hload, hcheck, checkCacheArgs_error hcheck]

theorem loadLines_length_le {file : List String} {image : List Word} (h : loadLines 0 file = .ok image) :
    image.length ≤ memWords := by
  obtain ⟨hlen, hsize, -⟩ := (fileLoadsInAddressOrder file image).mp h
  exact hlen.trans_le hsize

theorem loadWords_zero_read {ws : List Word} (h : ws.length ≤ memWords) (m : Memory) (a : Addr) :
    (loadWords 0 ws m).read a = (ws[a.toNat]?).getD (m.read a) := by
  rw [loadWords_read _ _ _ _ (by rwa [Nat.zero_add])]
  by_cases ha : a.toNat < ws.length <;> simp [ha]

/-- Memory before the image is loaded reads 0, or the free draw of the word (D3). -/
theorem initialMemory_read (init : MemInit) (a : Addr) :
    (initialMemory init).read a =
      match init with
      | .zero => 0
      | .arbitrary draw => draw.getD a.toNat 0 := by
  cases init with
  | zero => rfl
  | arbitrary draw =>
    have ha : a.toNat < memWords := a.isLt
    calc (loadWords 0 (draw.take memWords) []).read a
      _ = ((draw.take memWords)[a.toNat]?).getD 0 := loadWords_zero_read (List.length_take_le ..) [] a
      _ = draw.getD a.toNat 0 := by rw [List.getElem?_take_of_lt ha, List.getD_eq_getElem?_getD]

theorem resetState_memory_wf (init : MemInit) (params : RunParams) (image : List Word) (caches : CacheHierarchy) :
    (resetState init params image caches).mem.wf = true :=
  loadWords_wf image 0 _ (initialMemory_wf init)

/-- Settles O50: a reset that succeeds is that of an image that fits and of cold caches, and words loaded at rising
addresses from 0 on stand over what memory held before. -/
theorem bootGivesTheResetState : Obligations.BootGivesTheResetState := by
  unfold Obligations.BootGivesTheResetState
  intro init params file args s hboot
  obtain ⟨image, caches, hload, hcheck, rfl⟩ := boot_ok hboot
  refine ⟨image, hload, hcheck, rfl, rfl, fun _ => resetState_readReg .., fun a => ?_,
    ((checkCacheArgs_eq_ok_iff ..).mp hcheck).cold, rfl, rfl, rfl⟩
  have hread := loadWords_zero_read (loadLines_length_le hload) (initialMemory init) a
  rw [initialMemory_read] at hread
  refine hread.trans ?_
  cases image[a.toNat]? <;> rfl

/-- Settles O49: the fields of `State.reset` are these. -/
theorem resetValues : Obligations.ResetValues := by
  unfold Obligations.ResetValues
  exact ⟨rfl, rfl, State.reset_readReg, Memory.read_nil, rfl, rfl, rfl, rfl, rfl, rfl⟩

/-! ### The final report (R208, R209) -/

/-- Settles O57: a report is made of the halted state's pc, registers and first 128 words. -/
theorem reportOnlyAfterHalt : Obligations.ReportOnlyAfterHalt := by
  unfold Obligations.ReportOnlyAfterHalt
  intro s
  refine ⟨fun hhalted => ⟨_, if_pos hhalted, rfl, fun _ => rfl, ?_, fun a ha => ?_⟩, fun hrun => ?_⟩
  · simp [reportWords]
  · simp [reportWords, ha]
  · exact if_neg (Bool.eq_false_iff.mp hrun)

end Sys2Proof.Machine

/-! SUPPORT. Memory (spec/20_memory.md R52, R61; spec/10_state.md R31): a sequence of stores, and the canonical form as
data. -/

namespace Sys2Proof.Machine

/-- Settles O25: by induction on the last store, from what a read gives after one write. -/
theorem latestStoreWins : Obligations.LatestStoreWins := by
  unfold Obligations.LatestStoreWins
  intro m stores a
  induction stores using List.reverseRecOn with
  | nil => rfl
  | append_singleton stores p ih =>
    rw [List.foldl_append, List.foldl_cons, List.foldl_nil, Memory.read_write, ih, List.reverse_append,
      List.reverse_singleton, List.singleton_append, List.find?_cons]
    by_cases h : p.1 = a
    · rw [beq_iff_eq.mpr h, if_pos h.symm]; rfl
    · rw [beq_eq_false_iff_ne.mpr h, if_neg (Ne.symm h)]

/-- A canonical memory lists an address once. -/
theorem Memory.eq_of_address_eq {m : Memory} (hm : m.wf = true) {c d : Cell} (hc : c ∈ m) (hd : d ∈ m)
    (h : c.1 = d.1) : c = d := by
  obtain ⟨hrising, -⟩ := (Memory.wf_iff m).mp hm
  exact List.inj_on_of_nodup_map (List.pairwise_map.mpr (hrising.imp Nat.ne_of_lt)) hc hd h

theorem Memory.mem_of_find?_address {m : Memory} {k : Nat} {c : Cell} (h : m.find? (fun d => d.1 == k) = some c) :
    c ∈ m ∧ c.1 = k :=
  ⟨List.mem_of_find?_eq_some h, by simpa using List.find?_some h⟩

theorem Memory.mem_of_read_ne {m : Memory} {a : Addr} (h : m.read a ≠ unlistedWord) : (a.toNat, m.read a) ∈ m := by
  unfold Memory.read at h ⊢
  split at h
  · next c hc =>
    obtain ⟨hmem, haddr⟩ := Memory.mem_of_find?_address hc
    rw [← haddr]
    exact hmem
  · exact absurd rfl h

/-- The cells of a canonical memory are the addresses that do not read as an unlisted one, with what they read. -/
theorem Memory.mem_iff_read {m : Memory} (hm : m.wf = true) (c : Cell) :
    c ∈ m ↔ ∃ a : Addr, c = (a.toNat, m.read a) ∧ m.read a ≠ unlistedWord := by
  constructor
  · intro hc
    obtain ⟨-, hcells⟩ := (Memory.wf_iff m).mp hm
    obtain ⟨hlt, hne⟩ := hcells c hc
    have haddr : (BitVec.ofNat 13 c.1).toNat = c.1 := Nat.mod_eq_of_lt hlt
    have hread : m.read (BitVec.ofNat 13 c.1) = c.2 := by
      unfold Memory.read
      split
      · next d hd =>
        obtain ⟨hmem, hd⟩ := Memory.mem_of_find?_address hd
        exact congrArg Prod.snd (Memory.eq_of_address_eq hm hmem hc (hd.trans haddr))
      · next hnone => exact absurd (beq_iff_eq.mpr haddr.symm) (List.find?_eq_none.mp hnone c hc)
    exact ⟨BitVec.ofNat 13 c.1, by rw [haddr, hread], by rwa [hread]⟩
  · rintro ⟨a, rfl, hne⟩
    exact Memory.mem_of_read_ne hne

/-- Settles O26: the cells of a canonical memory are determined by what it reads, and so is their order. -/
theorem canonicalMemoriesAreData : Obligations.CanonicalMemoriesAreData := by
  unfold Obligations.CanonicalMemoriesAreData
  intro m m' hm hm' hread
  have hirrefl : Std.Irrefl (fun c d : Cell => c.1 < d.1) := ⟨fun c => Nat.lt_irrefl c.1⟩
  have hantisymm : Std.Antisymm (fun c d : Cell => c.1 < d.1) := ⟨fun _ _ h h' => absurd h (Nat.lt_asymm h')⟩
  refine List.Pairwise.eq_of_mem_iff ((Memory.wf_iff m).mp hm).1 ((Memory.wf_iff m').mp hm').1 fun c => ?_
  rw [Memory.mem_iff_read hm, Memory.mem_iff_read hm']
  simp only [hread]

end Sys2Proof.Machine

/-! SUPPORT. Steps and runs (spec/10_state.md R22 to R37, spec/20_memory.md R63 and R76, spec/60_exceptions.md R189):
what every step keeps, and so every run. -/

namespace Sys2Proof.Machine

/-! ### Memory and the run's constants -/

/-- An instruction leaves memory as it was, or is a `sw` and writes its word. -/
theorem exec_mem_cases {i : Instr} {s t : State} (h : exec i s = .next t) :
    t.mem = s.mem ∨
      ∃ b r imm, i = .sw b r imm ∧ t.mem = s.mem.write (effectiveAddress s b imm) (s.readReg r) := by
  rcases exec_cases i s with ⟨d, v, e, -⟩ | ⟨e, -⟩ | ⟨a, e, -⟩ | ⟨-, e⟩ | ⟨a, -, e⟩ | ⟨b, d, imm, -, -, e⟩ |
    ⟨b, r, imm, hi, e⟩ | ⟨f, -, e⟩ <;> rw [e] at h <;> cases h
  on_goal 7 => exact .inr ⟨b, r, imm, hi, rfl⟩
  all_goals exact .inl (by simp)

/-- Settles O47: of all instructions only `sw` writes memory, and a write changes what its own address reads. -/
theorem onlySwChangesMemory : Obligations.OnlySwChangesMemory := by
  unfold Obligations.OnlySwChangesMemory
  intro i s t a h hne
  rcases exec_mem_cases h with hmem | ⟨b, r, imm, hi, hmem⟩
  · exact absurd (by rw [hmem]) hne
  · rw [hmem, Memory.read_write] at hne ⊢
    by_cases ha : a = effectiveAddress s b imm
    · exact ⟨b, r, imm, hi, ha, if_pos ha⟩
    · exact absurd (if_neg ha) hne

theorem exec_params_summaries {i : Instr} {s t : State} (h : exec i s = .next t) :
    t.params = s.params ∧ t.summaries = s.summaries := by
  rcases exec_cases i s with ⟨d, v, e, -⟩ | ⟨e, -⟩ | ⟨a, e, -⟩ | ⟨-, e⟩ | ⟨a, -, e⟩ | ⟨b, d, imm, -, -, e⟩ |
    ⟨b, r, imm, -, e⟩ | ⟨f, -, e⟩ <;> rw [e] at h <;> cases h
  all_goals simp

/-- What is fixed for a run is the same in both states (R8, R14). -/
def SameConfiguration (s t : State) : Prop :=
  t.caches.configs = s.caches.configs ∧ t.params = s.params ∧ t.summaries = s.summaries

theorem step_sameConfiguration {s t : State} (h : step s = .next t) : SameConfiguration s t := by
  obtain ⟨-, hexec⟩ := (step_next_iff s t).mp h
  obtain ⟨-, hcaches, -⟩ := exec_reported hexec
  exact ⟨by rw [hcaches, CacheHierarchy.observeAll_configs], exec_params_summaries hexec⟩

theorem SameConfiguration.trans {s t u : State} (h : SameConfiguration s t) (h' : SameConfiguration t u) :
    SameConfiguration s u := by
  obtain ⟨hconfigs, hparams, hsummaries⟩ := h
  obtain ⟨hconfigs', hparams', hsummaries'⟩ := h'
  exact ⟨hconfigs'.trans hconfigs, hparams'.trans hparams, hsummaries'.trans hsummaries⟩

theorem Reaches.sameConfiguration {s t : State} (hst : Reaches s t) : SameConfiguration s t :=
  hst.of_step (P := SameConfiguration s) (fun _ _ hu h => hu.trans (step_sameConfiguration h)) ⟨rfl, rfl, rfl⟩

/-- Settles O48: every step keeps the configurations, since an access does, and the parameters and summaries. -/
theorem configurationIsFixedForTheRun : Obligations.ConfigurationIsFixedForTheRun := by
  unfold Obligations.ConfigurationIsFixedForTheRun
  exact fun s t hst => hst.sameConfiguration

/-- Settles O56: a reset leaves the summaries of its levels, and a run does not change them. -/
theorem summariesOneForEachLevel : Obligations.SummariesOneForEachLevel := by
  unfold Obligations.SummariesOneForEachLevel
  intro init params file args s t hboot hst
  obtain ⟨image, caches, -, -, rfl⟩ := boot_ok hboot
  obtain ⟨-, -, hsummaries⟩ := hst.sameConfiguration
  rw [hsummaries]
  cases caches <;> rfl

/-! ### The end of a run (R189, R190) -/

/-- Settles O39: a halted machine's step is the fault that names it. -/
theorem haltedMachineFaultsByName : Obligations.HaltedMachineFaultsByName := by
  unfold Obligations.HaltedMachineFaultsByName
  exact fun s hs => if_pos hs

/-- Settles O41: a run keeps `UNDEF_FUNC = nop`, under which a running engine always steps. -/
theorem runsEndOnlyByHalt : Obligations.RunsEndOnlyByHalt := by
  unfold Obligations.RunsEndOnlyByHalt
  intro s t hnop hst
  obtain ⟨-, hparams, -⟩ := hst.sameConfiguration
  rcases hhalted : t.halted with _ | _
  · rw [step_running t hhalted]
    exact .inr (exec_next_of_nop (hparams ▸ hnop) _)
  · exact .inl rfl

/-! ### The invariant -/

/-- Settles O42: no step writes register 0, a write keeps memory canonical, and an access keeps the caches well
formed. -/
theorem stepKeepsInvariant : Obligations.StepKeepsInvariant := by
  unfold Obligations.StepKeepsInvariant
  intro s t hs h
  obtain ⟨-, hexec⟩ := (step_next_iff s t).mp h
  obtain ⟨-, hcaches, -⟩ := exec_reported hexec
  refine ⟨(exec_readReg_zero hexec).trans hs.zeroReg, ?_, hcaches ▸ hs.caches.observeAll _⟩
  rcases exec_mem_cases hexec with hmem | ⟨b, r, imm, -, hmem⟩
  · exact hmem ▸ hs.memory
  · exact hmem ▸ Memory.write_wf _ _ _ hs.memory

/-- Settles O44: reset loads words into a canonical memory and leaves cold caches of checked configurations. -/
theorem bootMeetsInvariant : Obligations.BootMeetsInvariant := by
  unfold Obligations.BootMeetsInvariant
  intro init params file args s hboot
  obtain ⟨image, caches, -, hcheck, rfl⟩ := boot_ok hboot
  exact ⟨resetState_readReg .., resetState_memory_wf .., ((checkCacheArgs_eq_ok_iff ..).mp hcheck).cachesWf⟩

/-- Settles O43: `State.reset` is a reset that loads. -/
theorem resetMeetsInvariant : Obligations.ResetMeetsInvariant :=
  bootMeetsInvariant _ _ _ _ _ boot_empty

/-! ### The account of the accesses (R76) -/

/-- What the hierarchy holds and has logged is its account, from cold, of the accesses reported so far. -/
def Accounted (s : State) : Prop := s.caches.cold.observeAll s.accesses = (s.caches, s.trace)

theorem Reported.cold_eq {s t : State} {accs : List Access} (h : Reported s t accs) :
    t.caches.cold = s.caches.cold := by
  obtain ⟨-, hcaches, -⟩ := h
  rw [hcaches, CacheHierarchy.observeAll_cold]

theorem Reported.accounted {s t : State} {accs : List Access} (h : Reported s t accs) (hs : Accounted s) :
    Accounted t := by
  have hcold := h.cold_eq
  obtain ⟨haccesses, hcaches, htrace⟩ := h
  unfold Accounted at *
  rw [hcold, haccesses, CacheHierarchy.observeAll_append, hs, hcaches, htrace]

theorem step_accounted {s t : State} (hs : Accounted s) (h : step s = .next t) :
    t.caches.cold = s.caches.cold ∧ Accounted t := by
  have hreported := exec_reported ((step_next_iff s t).mp h).2
  exact ⟨hreported.cold_eq, hreported.accounted hs⟩

theorem Reaches.accounted {s t : State} (hst : Reaches s t) (hs : Accounted s) :
    t.caches.cold = s.caches.cold ∧ Accounted t :=
  hst.of_step (P := fun u => u.caches.cold = s.caches.cold ∧ Accounted u)
    (fun _ _ ⟨hcold, hu⟩ h => (step_accounted hu h).imp_left (·.trans hcold)) ⟨rfl, hs⟩

/-- Settles O36: a step reports to the hierarchy just the accesses it adds, so it extends the account; a reset starts
with an empty account of cold caches. -/
theorem traceIsTheAccessesObserved : Obligations.TraceIsTheAccessesObserved := by
  unfold Obligations.TraceIsTheAccessesObserved
  refine ⟨fun s t => step_accounted, fun init params file args s t hboot hst => ?_⟩
  obtain ⟨image, caches, -, hcheck, rfl⟩ := boot_ok hboot
  have hcold : caches = caches.cold := ((checkCacheArgs_eq_ok_iff ..).mp hcheck).cold
  have hreset : Accounted (resetState init params image caches) := congrArg (·, []) hcold.symm
  obtain ⟨ht, hacc⟩ := hst.accounted hreset
  exact ⟨hcold.trans ht.symm, hacc⟩

/-! ### Programs that change themselves, set registers and return -/

/-- What the step after a `sw` can see of it: its write, the next word, and that the machine still runs. -/
theorem exec_sw_effect (b r : Reg) (imm : Int) (s : State) :
    ∃ t, exec (.sw b r imm) s = .next t ∧ NextWord s t ∧
      t.mem = s.mem.write (effectiveAddress s b imm) (s.readReg r) ∧ t.halted = s.halted :=
  ⟨_, exec_sw b r imm s, nextWord_advance s, rfl, rfl⟩

/-- Settles O27: the step after a `sw` fetches from the memory that the `sw` left. -/
theorem storedWordIsExecutedNext : Obligations.StoredWordIsExecutedNext := by
  unfold Obligations.StoredWordIsExecutedNext
  intro s b r imm hrun hdecode
  obtain ⟨t, hexec, hpc, hmem, hhalted⟩ := exec_sw_effect b r imm s
  rw [← hdecode, ← fetch_eq_read, ← step_running s hrun] at hexec
  have hnext : step t = exec (decode (t.mem.read t.pc)) t := step_running t (hhalted.trans hrun)
  rw [hmem, Memory.read_write] at hnext
  refine ⟨t, hexec, hpc, by rw [hmem, Memory.read_write, if_pos rfl], fun hself => ?_, fun hother => ?_⟩
  · rw [hnext, if_pos hself.symm]
  · rw [hnext, if_neg hother.symm]

/-- Settles O22: 8192 divides 65536, so the sum may be taken modulo 65536 first. -/
theorem effectiveAddressWraps : Obligations.EffectiveAddressWraps := by
  unfold Obligations.EffectiveAddressWraps
  intro s b imm
  rw [Int.emod_emod_of_dvd _ (by decide : (8192 : Int) ∣ 65536)]
  exact ⟨effectiveAddress_toNat s b imm, effectiveAddress_toNat s b imm⟩

/-- Settles O16: the sum with a register that reads 0 is the immediate. -/
theorem moviSetsTheRegister : Obligations.MoviSetsTheRegister := by
  unfold Obligations.MoviSetsTheRegister
  intro d k s hk hs
  have hsum : ((addImmediate (s.readReg 0) (simm7Of k)).toNat : Int) = simm7Of k % 65536 := by
    simp [addImmediate_toNat, hs.zeroReg]
  rw [decode_wordRRI_addi 0 d hk]
  obtain ⟨t, hexec, hreg, -⟩ := exec_of_finish (i := .addi 0 d (simm7Of k)) rfl hsum
  exact ⟨t, hexec, hreg⟩

/-- Settles O20: the link register holds the address of the word after the `jal`, below 8192. -/
theorem jrReturnsFromJal : Obligations.JrReturnsFromJal := by
  unfold Obligations.JrReturnsFromJal
  intro target g s t h
  rw [exec_jal] at h
  cases h
  have hlink : ((s.writeReg linkReg (linkValue s.pc)).setPc target).readReg 7 = linkValue s.pc :=
    s.readReg_writeReg_same linkReg (linkValue s.pc) (by decide)
  refine ⟨_, rfl, ?_⟩
  rw [NextWord, State.setPc_pc, registerTarget_toNat, hlink, linkValue_toNat, Nat.mod_mod]

end Sys2Proof.Machine
